-- ==== Sys2Proof/Word.lean ====
section
/-! DEFINITION. The two word types of the core: every register but PC is a byte, PC and every address
are 16 bits (00_scope.md section 4; 10_state.md rules R10 to R15, R17). -/

namespace Sys2Proof

/-- An 8-bit value: A, X, Y, SP, P and every memory cell. -/
abbrev Byte := BitVec 8

/-- A 16-bit value: PC and every address. -/
abbrev Addr := BitVec 16

end Sys2Proof
end

