-- ==== Sys2Proof/Machine/Bytes.lean ====
section
/-! DEFINITION. Byte order, extension and bit helpers: `{h, l}`, `zext_16`, `sext_16` of 00_scope.md
section 5, and the two bytes of a word. -/

namespace Sys2Proof

/-- `{h, l}` = `h * 256 + l` (R33, R54). -/
def word (h l : Byte) : Addr := h ++ l

/-- Bits 15 to 8 of a word. -/
def hiByte (w : Addr) : Byte := w.extractLsb' 8 8

/-- Bits 7 to 0 of a word. -/
def loByte (w : Addr) : Byte := w.extractLsb' 0 8

/-- The 16-bit value equal to the byte (R53, zero-page operands). -/
def zext16 (b : Byte) : Addr := b.setWidth 16

/-- The byte as a signed displacement, -128 to 127, modulo 65536 (R53, relative operands). -/
def sext16 (b : Byte) : Addr := b.signExtend 16

end Sys2Proof
end

