-- ==== Sys2Proof/Modes.lean ====
section
/-! DEFINITION. Operand forms: the addressing modes of 40_addressing_modes.md with their operand bytes.
Relative operands are a plain displacement byte, and the operands of JMP and JSR a plain 16-bit
address, so they need no type of their own; implied instructions have no operand (R81). -/

namespace Sys2Proof

/-- The names of the eight modes that designate a memory cell (R72 to R79). -/
inductive ModeTag where
  | zp | zpx | zpy | abs | absx | absy | indx | indy
  deriving DecidableEq, Repr

/-- A memory operand: a mode and its operand byte `l`, or its operand word `h l` (R53, R54). -/
inductive MemMode where
  /-- zero-page (R72) -/
  | zp (l : Byte)
  /-- zero-page,X (R73) -/
  | zpx (l : Byte)
  /-- zero-page,Y (R74) -/
  | zpy (l : Byte)
  /-- absolute (R75) -/
  | abs (w : Addr)
  /-- absolute,X (R76) -/
  | absx (w : Addr)
  /-- absolute,Y (R77) -/
  | absy (w : Addr)
  /-- (indirect,X) (R78) -/
  | indx (l : Byte)
  /-- (indirect),Y (R79) -/
  | indy (l : Byte)
  deriving DecidableEq, Repr

/-- The operand of an instruction that reads one byte: immediate (R71) or from memory. -/
inductive Src where
  | imm (l : Byte)
  | mem (m : MemMode)
  deriving DecidableEq, Repr

/-- The operand a shift or rotate changes: the accumulator (R80) or a memory cell (R107). -/
inductive Target where
  | acc
  | mem (m : MemMode)
  deriving DecidableEq, Repr

/-- The name of a memory operand's mode. -/
def MemMode.tag : MemMode → ModeTag
  | .zp _ => .zp
  | .zpx _ => .zpx
  | .zpy _ => .zpy
  | .abs _ => .abs
  | .absx _ => .absx
  | .absy _ => .absy
  | .indx _ => .indx
  | .indy _ => .indy

end Sys2Proof
end

