-- ==== Sys2Proof/Syntax.lean ====
section
/-! DEFINITION. The instruction set: the 51 mnemonics of 30_encoding.md rule R55 (JMP once for each of
its two modes) and the unrecognized opcode bytes of rule R56. A mnemonic's several rows of
spec/opcode_table.json differ in addressing mode alone and are one constructor with the mode as its
operand; which modes a mnemonic has is WellFormed.lean's. -/

namespace Sys2Proof

inductive Instr where
  -- 42_load_store_transfer.md
  | lda (o : Src)
  | ldx (o : Src)
  | ldy (o : Src)
  | sta (m : MemMode)
  | stx (m : MemMode)
  | sty (m : MemMode)
  | tax
  | txa
  | tay
  | tya
  | tsx
  | txs
  -- 43_incdec_compare.md
  | inc (m : MemMode)
  | dec (m : MemMode)
  | inx
  | iny
  | dex
  | dey
  | cmp (o : Src)
  | cpx (o : Src)
  | cpy (o : Src)
  -- 44_logic_shift_arith.md
  | and (o : Src)
  | ora (o : Src)
  | eor (o : Src)
  | asl (t : Target)
  | lsr (t : Target)
  | rol (t : Target)
  | ror (t : Target)
  | adc (o : Src)
  | sbc (o : Src)
  -- 45_control_flow.md
  /-- JMP absolute: the operand is the target. -/
  | jmpAbs (target : Addr)
  /-- JMP indirect: the operand is the address of the pointer. -/
  | jmpInd (pointer : Addr)
  | jsr (target : Addr)
  | rts
  | rti
  | bcc (d : Byte)
  | bcs (d : Byte)
  | beq (d : Byte)
  | bne (d : Byte)
  | bmi (d : Byte)
  | bpl (d : Byte)
  | bvc (d : Byte)
  | bvs (d : Byte)
  -- 46_flags_nop_brk.md
  | sec
  | clc
  | sed
  | cld
  | sei
  | cli
  | clv
  | nop
  | brk
  /-- One of the 111 opcode bytes that match no known case (R56). -/
  | unrecognized (op : Byte)
  deriving DecidableEq, Repr

end Sys2Proof
end

