-- ==== Sys2Proof/WellFormed.lean ====
section
/-! DEFINITION. Which terms of `Instr` are instructions of the core: the mnemonic-by-mode matrix of
30_encoding.md rule R55 and the list of unrecognized bytes of rule R56. PRESUMED (the spec's
decisions D2 and D3; log entries 2 and 3): the matrix is the conventional 6502 one. -/

namespace Sys2Proof

/-- The memory operand is in one of the named modes. -/
def MemMode.isIn (tags : List ModeTag) (m : MemMode) : Bool :=
  tags.contains m.tag

/-- Immediate, or a memory operand in one of the named modes. -/
def Src.isIn (tags : List ModeTag) : Src → Bool
  | .imm _ => true
  | .mem m => m.isIn tags

/-- The accumulator, or a memory operand in one of the named modes. -/
def Target.isIn (tags : List ModeTag) : Target → Bool
  | .acc => true
  | .mem m => m.isIn tags

/-- The 111 opcode bytes of R56, row by row as the spec lists them. -/
def unrecognizedOpcodes : List Byte :=
  [0x02, 0x03, 0x04, 0x07, 0x08, 0x0B, 0x0C, 0x0F] ++
  [0x12, 0x13, 0x14, 0x17, 0x1A, 0x1B, 0x1C, 0x1F] ++
  [0x22, 0x23, 0x24, 0x27, 0x28, 0x2B, 0x2C, 0x2F] ++
  [0x32, 0x33, 0x34, 0x37, 0x3A, 0x3B, 0x3C, 0x3F] ++
  [0x42, 0x43, 0x44, 0x47, 0x48, 0x4B, 0x4F] ++
  [0x52, 0x53, 0x54, 0x57, 0x5A, 0x5B, 0x5C, 0x5F] ++
  [0x62, 0x63, 0x64, 0x67, 0x68, 0x6B, 0x6F] ++
  [0x72, 0x73, 0x74, 0x77, 0x7A, 0x7B, 0x7C, 0x7F] ++
  [0x80, 0x82, 0x83, 0x87, 0x89, 0x8B, 0x8F] ++
  [0x92, 0x93, 0x97, 0x9B, 0x9C, 0x9E, 0x9F] ++
  [0xA3, 0xA7, 0xAB, 0xAF] ++
  [0xB2, 0xB3, 0xB7, 0xBB, 0xBF] ++
  [0xC2, 0xC3, 0xC7, 0xCB, 0xCF] ++
  [0xD2, 0xD3, 0xD4, 0xD7, 0xDA, 0xDB, 0xDC, 0xDF] ++
  [0xE2, 0xE3, 0xE7, 0xEB, 0xEF] ++
  [0xF2, 0xF3, 0xF4, 0xF7, 0xFA, 0xFB, 0xFC, 0xFF]

/-- The modes LDA, STA, CMP, AND, ORA, EOR, ADC and SBC have (R55). -/
def accumulatorModes : List ModeTag := [.zp, .zpx, .abs, .absx, .absy, .indx, .indy]

/-- The modes INC, DEC and the shifts and rotates have (R55). -/
def modifyModes : List ModeTag := [.zp, .zpx, .abs, .absx]

/-- `i` is an instruction of the core: its operand form stands in the matrix of R55, or its byte in the
list of R56. -/
def Instr.wellFormed : Instr → Bool
  | .lda o => o.isIn accumulatorModes
  | .ldx o => o.isIn [.zp, .zpy, .abs, .absy]
  | .ldy o => o.isIn [.zp, .zpx, .abs, .absx]
  | .sta m => m.isIn accumulatorModes
  | .stx m => m.isIn [.zp, .zpy, .abs]
  | .sty m => m.isIn [.zp, .zpx, .abs]
  | .inc m => m.isIn modifyModes
  | .dec m => m.isIn modifyModes
  | .cmp o => o.isIn accumulatorModes
  | .cpx o => o.isIn [.zp, .abs]
  | .cpy o => o.isIn [.zp, .abs]
  | .and o => o.isIn accumulatorModes
  | .ora o => o.isIn accumulatorModes
  | .eor o => o.isIn accumulatorModes
  | .asl t => t.isIn modifyModes
  | .lsr t => t.isIn modifyModes
  | .rol t => t.isIn modifyModes
  | .ror t => t.isIn modifyModes
  | .adc o => o.isIn accumulatorModes
  | .sbc o => o.isIn accumulatorModes
  | .tax | .txa | .tay | .tya | .tsx | .txs => true
  | .inx | .iny | .dex | .dey => true
  | .jmpAbs _ | .jmpInd _ | .jsr _ | .rts | .rti => true
  | .bcc _ | .bcs _ | .beq _ | .bne _ | .bmi _ | .bpl _ | .bvc _ | .bvs _ => true
  | .sec | .clc | .sed | .cld | .sei | .cli | .clv | .nop | .brk => true
  | .unrecognized op => unrecognizedOpcodes.contains op

end Sys2Proof
end

