-- ==== Sys2Proof/Decode.lean ====
section
/-! DEFINITION. The decoder and, after it, the encoder. The decoder is the 256-entry selection on the
opcode byte of 30_encoding.md rules R51, R55 and R56 (the matrix of R55, read by byte); the encoder is
R55's second table, read by mnemonic. PRESUMED (the spec's decisions D2 and D3; log entries 2 and 3):
the byte values are the conventional 6502 ones. -/

namespace Sys2Proof

/-- One entry of the opcode map: the format (R50) and what its operand makes of it. -/
inductive Entry where
  /-- Format F1: the opcode byte is the whole instruction. -/
  | one (i : Instr)
  /-- Format F2: one operand byte `l`. -/
  | byte (make : Byte → Instr)
  /-- Format F3: two operand bytes, `l` then `h`, taken as the word `h l`. -/
  | word (make : Addr → Instr)

/-- The opcode map of R55; every byte it does not name is unrecognized (R56). -/
def opcodeEntry (op : Byte) : Entry :=
  match op.toNat with
  | 0x00 => .one .brk
  | 0x01 => .byte fun l => .ora (.mem (.indx l))
  | 0x05 => .byte fun l => .ora (.mem (.zp l))
  | 0x06 => .byte fun l => .asl (.mem (.zp l))
  | 0x09 => .byte fun l => .ora (.imm l)
  | 0x0A => .one (.asl .acc)
  | 0x0D => .word fun w => .ora (.mem (.abs w))
  | 0x0E => .word fun w => .asl (.mem (.abs w))
  | 0x10 => .byte .bpl
  | 0x11 => .byte fun l => .ora (.mem (.indy l))
  | 0x15 => .byte fun l => .ora (.mem (.zpx l))
  | 0x16 => .byte fun l => .asl (.mem (.zpx l))
  | 0x18 => .one .clc
  | 0x19 => .word fun w => .ora (.mem (.absy w))
  | 0x1D => .word fun w => .ora (.mem (.absx w))
  | 0x1E => .word fun w => .asl (.mem (.absx w))
  | 0x20 => .word .jsr
  | 0x21 => .byte fun l => .and (.mem (.indx l))
  | 0x25 => .byte fun l => .and (.mem (.zp l))
  | 0x26 => .byte fun l => .rol (.mem (.zp l))
  | 0x29 => .byte fun l => .and (.imm l)
  | 0x2A => .one (.rol .acc)
  | 0x2D => .word fun w => .and (.mem (.abs w))
  | 0x2E => .word fun w => .rol (.mem (.abs w))
  | 0x30 => .byte .bmi
  | 0x31 => .byte fun l => .and (.mem (.indy l))
  | 0x35 => .byte fun l => .and (.mem (.zpx l))
  | 0x36 => .byte fun l => .rol (.mem (.zpx l))
  | 0x38 => .one .sec
  | 0x39 => .word fun w => .and (.mem (.absy w))
  | 0x3D => .word fun w => .and (.mem (.absx w))
  | 0x3E => .word fun w => .rol (.mem (.absx w))
  | 0x40 => .one .rti
  | 0x41 => .byte fun l => .eor (.mem (.indx l))
  | 0x45 => .byte fun l => .eor (.mem (.zp l))
  | 0x46 => .byte fun l => .lsr (.mem (.zp l))
  | 0x49 => .byte fun l => .eor (.imm l)
  | 0x4A => .one (.lsr .acc)
  | 0x4C => .word .jmpAbs
  | 0x4D => .word fun w => .eor (.mem (.abs w))
  | 0x4E => .word fun w => .lsr (.mem (.abs w))
  | 0x50 => .byte .bvc
  | 0x51 => .byte fun l => .eor (.mem (.indy l))
  | 0x55 => .byte fun l => .eor (.mem (.zpx l))
  | 0x56 => .byte fun l => .lsr (.mem (.zpx l))
  | 0x58 => .one .cli
  | 0x59 => .word fun w => .eor (.mem (.absy w))
  | 0x5D => .word fun w => .eor (.mem (.absx w))
  | 0x5E => .word fun w => .lsr (.mem (.absx w))
  | 0x60 => .one .rts
  | 0x61 => .byte fun l => .adc (.mem (.indx l))
  | 0x65 => .byte fun l => .adc (.mem (.zp l))
  | 0x66 => .byte fun l => .ror (.mem (.zp l))
  | 0x69 => .byte fun l => .adc (.imm l)
  | 0x6A => .one (.ror .acc)
  | 0x6C => .word .jmpInd
  | 0x6D => .word fun w => .adc (.mem (.abs w))
  | 0x6E => .word fun w => .ror (.mem (.abs w))
  | 0x70 => .byte .bvs
  | 0x71 => .byte fun l => .adc (.mem (.indy l))
  | 0x75 => .byte fun l => .adc (.mem (.zpx l))
  | 0x76 => .byte fun l => .ror (.mem (.zpx l))
  | 0x78 => .one .sei
  | 0x79 => .word fun w => .adc (.mem (.absy w))
  | 0x7D => .word fun w => .adc (.mem (.absx w))
  | 0x7E => .word fun w => .ror (.mem (.absx w))
  | 0x81 => .byte fun l => .sta (.indx l)
  | 0x84 => .byte fun l => .sty (.zp l)
  | 0x85 => .byte fun l => .sta (.zp l)
  | 0x86 => .byte fun l => .stx (.zp l)
  | 0x88 => .one .dey
  | 0x8A => .one .txa
  | 0x8C => .word fun w => .sty (.abs w)
  | 0x8D => .word fun w => .sta (.abs w)
  | 0x8E => .word fun w => .stx (.abs w)
  | 0x90 => .byte .bcc
  | 0x91 => .byte fun l => .sta (.indy l)
  | 0x94 => .byte fun l => .sty (.zpx l)
  | 0x95 => .byte fun l => .sta (.zpx l)
  | 0x96 => .byte fun l => .stx (.zpy l)
  | 0x98 => .one .tya
  | 0x99 => .word fun w => .sta (.absy w)
  | 0x9A => .one .txs
  | 0x9D => .word fun w => .sta (.absx w)
  | 0xA0 => .byte fun l => .ldy (.imm l)
  | 0xA1 => .byte fun l => .lda (.mem (.indx l))
  | 0xA2 => .byte fun l => .ldx (.imm l)
  | 0xA4 => .byte fun l => .ldy (.mem (.zp l))
  | 0xA5 => .byte fun l => .lda (.mem (.zp l))
  | 0xA6 => .byte fun l => .ldx (.mem (.zp l))
  | 0xA8 => .one .tay
  | 0xA9 => .byte fun l => .lda (.imm l)
  | 0xAA => .one .tax
  | 0xAC => .word fun w => .ldy (.mem (.abs w))
  | 0xAD => .word fun w => .lda (.mem (.abs w))
  | 0xAE => .word fun w => .ldx (.mem (.abs w))
  | 0xB0 => .byte .bcs
  | 0xB1 => .byte fun l => .lda (.mem (.indy l))
  | 0xB4 => .byte fun l => .ldy (.mem (.zpx l))
  | 0xB5 => .byte fun l => .lda (.mem (.zpx l))
  | 0xB6 => .byte fun l => .ldx (.mem (.zpy l))
  | 0xB8 => .one .clv
  | 0xB9 => .word fun w => .lda (.mem (.absy w))
  | 0xBA => .one .tsx
  | 0xBC => .word fun w => .ldy (.mem (.absx w))
  | 0xBD => .word fun w => .lda (.mem (.absx w))
  | 0xBE => .word fun w => .ldx (.mem (.absy w))
  | 0xC0 => .byte fun l => .cpy (.imm l)
  | 0xC1 => .byte fun l => .cmp (.mem (.indx l))
  | 0xC4 => .byte fun l => .cpy (.mem (.zp l))
  | 0xC5 => .byte fun l => .cmp (.mem (.zp l))
  | 0xC6 => .byte fun l => .dec (.zp l)
  | 0xC8 => .one .iny
  | 0xC9 => .byte fun l => .cmp (.imm l)
  | 0xCA => .one .dex
  | 0xCC => .word fun w => .cpy (.mem (.abs w))
  | 0xCD => .word fun w => .cmp (.mem (.abs w))
  | 0xCE => .word fun w => .dec (.abs w)
  | 0xD0 => .byte .bne
  | 0xD1 => .byte fun l => .cmp (.mem (.indy l))
  | 0xD5 => .byte fun l => .cmp (.mem (.zpx l))
  | 0xD6 => .byte fun l => .dec (.zpx l)
  | 0xD8 => .one .cld
  | 0xD9 => .word fun w => .cmp (.mem (.absy w))
  | 0xDD => .word fun w => .cmp (.mem (.absx w))
  | 0xDE => .word fun w => .dec (.absx w)
  | 0xE0 => .byte fun l => .cpx (.imm l)
  | 0xE1 => .byte fun l => .sbc (.mem (.indx l))
  | 0xE4 => .byte fun l => .cpx (.mem (.zp l))
  | 0xE5 => .byte fun l => .sbc (.mem (.zp l))
  | 0xE6 => .byte fun l => .inc (.zp l)
  | 0xE8 => .one .inx
  | 0xE9 => .byte fun l => .sbc (.imm l)
  | 0xEA => .one .nop
  | 0xEC => .word fun w => .cpx (.mem (.abs w))
  | 0xED => .word fun w => .sbc (.mem (.abs w))
  | 0xEE => .word fun w => .inc (.abs w)
  | 0xF0 => .byte .beq
  | 0xF1 => .byte fun l => .sbc (.mem (.indy l))
  | 0xF5 => .byte fun l => .sbc (.mem (.zpx l))
  | 0xF6 => .byte fun l => .inc (.zpx l)
  | 0xF8 => .one .sed
  | 0xF9 => .word fun w => .sbc (.mem (.absy w))
  | 0xFD => .word fun w => .sbc (.mem (.absx w))
  | 0xFE => .word fun w => .inc (.absx w)
  | _ => .one (.unrecognized op)

/-- Why bytes do not decode. Every opcode byte has an entry, so the one reason is that they end too
soon; memory wraps and never ends (R52), so a step never meets it. -/
inductive DecodeError where
  /-- There is no opcode byte. -/
  | noOpcode
  /-- The opcode's format has more operand bytes than are there. -/
  | truncated (op : Byte)
  deriving DecidableEq, Repr

/-- The instruction a list of bytes begins with, and the bytes after it (R50, R52 to R54). -/
def decode : List Byte → Except DecodeError (Instr × List Byte)
  | [] => .error .noOpcode
  | op :: rest =>
    match opcodeEntry op with
    | .one i => .ok (i, rest)
    | .byte make =>
      match rest with
      | l :: rest => .ok (make l, rest)
      | [] => .error (.truncated op)
    | .word make =>
      match rest with
      | l :: h :: rest => .ok (make (word h l), rest)
      | _ => .error (.truncated op)

/-- The number of bytes of an instruction that begins with `op` (R58). -/
def opcodeLength (op : Byte) : Nat :=
  match opcodeEntry op with
  | .one _ => 1
  | .byte _ => 2
  | .word _ => 3

/-! ### The encoder -/

/-- The operand bytes of a memory operand, in the order they stand after the opcode (R33, R50). -/
def MemMode.operandBytes : MemMode → List Byte
  | .zp l | .zpx l | .zpy l | .indx l | .indy l => [l]
  | .abs w | .absx w | .absy w => [loByte w, hiByte w]

/-- The bytes of an instruction with a memory operand, given its row of R55. -/
def encodeMem (row : List (ModeTag × Byte)) (m : MemMode) : Option (List Byte) :=
  (row.lookup m.tag).map (· :: m.operandBytes)

/-- The same for an instruction that also has an immediate form. -/
def encodeSrc (imm : Byte) (row : List (ModeTag × Byte)) : Src → Option (List Byte)
  | .imm l => some [imm, l]
  | .mem m => encodeMem row m

/-- The same for an instruction that also has an accumulator form. -/
def encodeTarget (acc : Byte) (row : List (ModeTag × Byte)) : Target → Option (List Byte)
  | .acc => some [acc]
  | .mem m => encodeMem row m

/-- The bytes of an instruction, the opcode first; `none` for a term that is no instruction. -/
def encode : Instr → Option (List Byte)
  | .lda o => encodeSrc 0xA9 [(.zp, 0xA5), (.zpx, 0xB5), (.abs, 0xAD), (.absx, 0xBD), (.absy, 0xB9), (.indx, 0xA1), (.indy, 0xB1)] o
  | .ldx o => encodeSrc 0xA2 [(.zp, 0xA6), (.zpy, 0xB6), (.abs, 0xAE), (.absy, 0xBE)] o
  | .ldy o => encodeSrc 0xA0 [(.zp, 0xA4), (.zpx, 0xB4), (.abs, 0xAC), (.absx, 0xBC)] o
  | .sta m => encodeMem [(.zp, 0x85), (.zpx, 0x95), (.abs, 0x8D), (.absx, 0x9D), (.absy, 0x99), (.indx, 0x81), (.indy, 0x91)] m
  | .stx m => encodeMem [(.zp, 0x86), (.zpy, 0x96), (.abs, 0x8E)] m
  | .sty m => encodeMem [(.zp, 0x84), (.zpx, 0x94), (.abs, 0x8C)] m
  | .tax => some [0xAA]
  | .txa => some [0x8A]
  | .tay => some [0xA8]
  | .tya => some [0x98]
  | .tsx => some [0xBA]
  | .txs => some [0x9A]
  | .inc m => encodeMem [(.zp, 0xE6), (.zpx, 0xF6), (.abs, 0xEE), (.absx, 0xFE)] m
  | .dec m => encodeMem [(.zp, 0xC6), (.zpx, 0xD6), (.abs, 0xCE), (.absx, 0xDE)] m
  | .inx => some [0xE8]
  | .iny => some [0xC8]
  | .dex => some [0xCA]
  | .dey => some [0x88]
  | .cmp o => encodeSrc 0xC9 [(.zp, 0xC5), (.zpx, 0xD5), (.abs, 0xCD), (.absx, 0xDD), (.absy, 0xD9), (.indx, 0xC1), (.indy, 0xD1)] o
  | .cpx o => encodeSrc 0xE0 [(.zp, 0xE4), (.abs, 0xEC)] o
  | .cpy o => encodeSrc 0xC0 [(.zp, 0xC4), (.abs, 0xCC)] o
  | .and o => encodeSrc 0x29 [(.zp, 0x25), (.zpx, 0x35), (.abs, 0x2D), (.absx, 0x3D), (.absy, 0x39), (.indx, 0x21), (.indy, 0x31)] o
  | .ora o => encodeSrc 0x09 [(.zp, 0x05), (.zpx, 0x15), (.abs, 0x0D), (.absx, 0x1D), (.absy, 0x19), (.indx, 0x01), (.indy, 0x11)] o
  | .eor o => encodeSrc 0x49 [(.zp, 0x45), (.zpx, 0x55), (.abs, 0x4D), (.absx, 0x5D), (.absy, 0x59), (.indx, 0x41), (.indy, 0x51)] o
  | .asl t => encodeTarget 0x0A [(.zp, 0x06), (.zpx, 0x16), (.abs, 0x0E), (.absx, 0x1E)] t
  | .lsr t => encodeTarget 0x4A [(.zp, 0x46), (.zpx, 0x56), (.abs, 0x4E), (.absx, 0x5E)] t
  | .rol t => encodeTarget 0x2A [(.zp, 0x26), (.zpx, 0x36), (.abs, 0x2E), (.absx, 0x3E)] t
  | .ror t => encodeTarget 0x6A [(.zp, 0x66), (.zpx, 0x76), (.abs, 0x6E), (.absx, 0x7E)] t
  | .adc o => encodeSrc 0x69 [(.zp, 0x65), (.zpx, 0x75), (.abs, 0x6D), (.absx, 0x7D), (.absy, 0x79), (.indx, 0x61), (.indy, 0x71)] o
  | .sbc o => encodeSrc 0xE9 [(.zp, 0xE5), (.zpx, 0xF5), (.abs, 0xED), (.absx, 0xFD), (.absy, 0xF9), (.indx, 0xE1), (.indy, 0xF1)] o
  | .jmpAbs w => some [0x4C, loByte w, hiByte w]
  | .jmpInd w => some [0x6C, loByte w, hiByte w]
  | .jsr w => some [0x20, loByte w, hiByte w]
  | .rts => some [0x60]
  | .rti => some [0x40]
  | .bcc d => some [0x90, d]
  | .bcs d => some [0xB0, d]
  | .beq d => some [0xF0, d]
  | .bne d => some [0xD0, d]
  | .bmi d => some [0x30, d]
  | .bpl d => some [0x10, d]
  | .bvc d => some [0x50, d]
  | .bvs d => some [0x70, d]
  | .sec => some [0x38]
  | .clc => some [0x18]
  | .sed => some [0xF8]
  | .cld => some [0xD8]
  | .sei => some [0x78]
  | .cli => some [0x58]
  | .clv => some [0xB8]
  | .nop => some [0xEA]
  | .brk => some [0x00]
  | .unrecognized op => if unrecognizedOpcodes.contains op then some [op] else none

/-! ### The host's reading of a table word -/

/-- The first `k` bytes of a word in which bit 0 is the least significant bit of the first byte. -/
def bytesOfTableWord : Nat → Nat → List Byte
  | 0, _ => []
  | k + 1, w => BitVec.ofNat 8 w :: bytesOfTableWord k (w / 256)

/-- An instruction of `nbits` bits, numbered as spec/opcode_table.json numbers them, as the three bytes
of the longest instruction; every bit above `nbits` is 0. -/
def tableWordBytes (nbits w : Nat) : List Byte :=
  bytesOfTableWord 3 (w % 2 ^ nbits)

/-- The instruction this decoder reads from a word of the opcode table. -/
def decodeTableWord (nbits w : Nat) : Option Instr :=
  match decode (tableWordBytes nbits w) with
  | .ok (i, _) => some i
  | .error _ => none

end Sys2Proof
end

