-- ==== Sys2Proof/Machine/Flags.lean ====
section
/-! DEFINITION. The flags byte and the primitives that compute it (10_state.md R15; 41_primitives.md
R90 to R102). Each primitive is a function of its operands and of P before; it returns P after, and
the result byte where there is one. None touches PC, memory or a register (41_primitives.md, head). -/

namespace Sys2Proof.Machine

/-- The bits of P, from bit 7 to bit 0 (R15). -/
inductive Flag where
  | n | v | b5 | b4 | d | i | z | c
  deriving DecidableEq, Repr

/-- `mask(x)` of R91. -/
def Flag.mask : Flag → Byte
  | .n => 0x80
  | .v => 0x40
  | .b5 => 0x20
  | .b4 => 0x10
  | .d => 0x08
  | .i => 0x04
  | .z => 0x02
  | .c => 0x01

/-- `P.x` as a truth value. -/
def getFlag (f : Flag) (p : Byte) : Bool := p &&& f.mask != 0

/-- `P.x <- 1`: "OR in exactly bit X" (R91). -/
def setFlag (f : Flag) (p : Byte) : Byte := p ||| f.mask

/-- `P.x <- 0`: "zero exactly bit X", the others unchanged (R91, conflict C1, the spec's decision D1;
log entry 6). -/
def clearFlag (f : Flag) (p : Byte) : Byte := p &&& ~~~f.mask

/-- `P.x <- b`. -/
def putFlag (f : Flag) (b : Bool) (p : Byte) : Byte := if b then setFlag f p else clearFlag f p

/-- `P.C` as the number 0 or 1. -/
def carryIn (p : Byte) : Nat := (getFlag .c p).toNat

/-- `setNZ(v)` (R90): Z from `v = 0`, N from bit 7 of `v`. -/
def setNZ (v p : Byte) : Byte := putFlag .n v.msb (putFlag .z (v == 0) p)

/-- `Compare(a, b)` (R94): `a` the register, `b` the operand. N is the AND of the two sign bits and 0 on
equality (the spec's decision D10; log entry 11); C is the unsigned `a >= b`. -/
def compare (a b p : Byte) : Byte :=
  let p := if a = b then setFlag .z (clearFlag .n p)
           else putFlag .n (a.msb && b.msb) (clearFlag .z p)
  putFlag .c (b ≤ a) p

/-- `Add(b)` on the accumulator `a`, the closed form of R95: the sum with the carry, V and C both 1
exactly when it passes 255 (the spec's decision D11; log entry 12), then `setNZ`. P.D is not read. -/
def add (a b p : Byte) : Byte × Byte :=
  let sum := a.toNat + b.toNat + carryIn p
  let r : Byte := BitVec.ofNat 8 sum
  (r, setNZ r (putFlag .c (255 < sum) (putFlag .v (255 < sum) p)))

/-- `Sub(b)` on the accumulator `a`, the closed form of R96: Carry is a borrow in and out (the spec's
decision D12; log entry 13). -/
def sub (a b p : Byte) : Byte × Byte :=
  let diff : Int := (a.toNat : Int) - b.toNat - carryIn p
  let r : Byte := BitVec.ofInt 8 diff
  (r, setNZ r (putFlag .c (diff < 0) (putFlag .v (diff < 0) p)))

/-- `ShiftLeft(v)` (R97). -/
def shiftLeft (v p : Byte) : Byte × Byte :=
  let r := v <<< 1
  (r, setNZ r (putFlag .c v.msb p))

/-- `ShiftRight(v)` (R98). -/
def shiftRight (v p : Byte) : Byte × Byte :=
  let r := v >>> 1
  (r, setNZ r (putFlag .c (v.getLsbD 0) p))

/-- `RotateLeft(v)` (R99): the shift with its flags, then the old Carry into bit 0. Z and N stay those
of the shifted value (the spec's decision D21; log entry 20). -/
def rotateLeft (v p : Byte) : Byte × Byte :=
  let shifted := shiftLeft v p
  (shifted.1 ||| BitVec.ofNat 8 (carryIn p), shifted.2)

/-- `RotateRight(v)` (R100): the shift with its flags, then the old Carry into bit 7 (the spec's
decision D21; log entry 20). -/
def rotateRight (v p : Byte) : Byte × Byte :=
  let shifted := shiftRight v p
  (shifted.1 ||| BitVec.ofNat 8 (carryIn p) <<< 7, shifted.2)

/-- `Inc(v)` (R101). -/
def increment (v p : Byte) : Byte × Byte := (v + 1, setNZ (v + 1) p)

/-- `Dec(v)` (R102). -/
def decrement (v p : Byte) : Byte × Byte := (v - 1, setNZ (v - 1) p)

/-! ### The loops the source describes

R95 and R96 give each of `Add` and `Sub` as a loop of unit steps and as the closed form above, which
the instructions use. The loops stand here so that the two can be proved equal. -/

/-- One unit step of `Add`: increment, and note a wrap from 0xFF to 0x00 in V. -/
def addUnit (s : Byte × Byte) : Byte × Byte :=
  let r := s.1 + 1
  (r, if r = 0x00 then setFlag .v s.2 else s.2)

/-- One unit step of `Sub`: decrement, and note a wrap from 0x00 to 0xFF in V. -/
def subUnit (s : Byte × Byte) : Byte × Byte :=
  let r := s.1 - 1
  (r, if r = 0xFF then setFlag .v s.2 else s.2)

/-- `k` unit steps. -/
def repeatUnit (unit : Byte × Byte → Byte × Byte) : Nat → Byte × Byte → Byte × Byte
  | 0, s => s
  | k + 1, s => repeatUnit unit k (unit s)

/-- The loop form shared by R95 and R96: V cleared, `b` unit steps, one more if Carry was set on entry,
Overflow promoted into Carry, then `setNZ`. -/
def unitLoop (unit : Byte × Byte → Byte × Byte) (a b p : Byte) : Byte × Byte :=
  let cin := getFlag .c p
  let s := repeatUnit unit b.toNat (a, clearFlag .v p)
  let s := if cin then unit s else s
  (s.1, setNZ s.1 (putFlag .c (getFlag .v s.2) s.2))

/-- `Add(b)` as the source's loop (R95). -/
def addLoop (a b p : Byte) : Byte × Byte := unitLoop addUnit a b p

/-- `Sub(b)` as the source's loop (R96). -/
def subLoop (a b p : Byte) : Byte × Byte := unitLoop subUnit a b p

end Sys2Proof.Machine
end

