-- ==== Sys2Proof/Config.lean ====
section
/-! DEFINITION. What is fixed for this machine. The spec fixes every width and leaves no value of the
core to an implementation (00_scope.md section 4), so there is no opaque free value here. The three
parameters it leaves open are inputs of a run: `IMAGE` and `HOST_WRITES` are arguments of the
operations of Machine/HostPort.lean, and `UNLISTED_STANDARD_OPCODES` is the list below. -/

namespace Sys2Proof.Config

/-- The number of bytes of memory, all present and writable (R17, R30). -/
def memorySize : Nat := 65536

/-- The lowest address of the stack page (R32). -/
def stackBase : Addr := 0x0100

/-- `UNLISTED_STANDARD_OPCODES`: PHP, BIT zp, PLP, BIT abs, PHA, PLA of a conventional 6502, none of
which the source names. DESIGN CHOICE (the spec's decision D4, its default; log entry 5): the core
treats them as unrecognized, so they take the halt path. -/
def unlistedStandardOpcodes : List Byte := [0x08, 0x24, 0x28, 0x2C, 0x48, 0x68]

end Sys2Proof.Config
end

