-- ==== Sys2Proof/Machine/State.lean ====
section
/-! DEFINITION. The state of the machine, the reasons a step could stop, and the state after reset
(10_state.md). -/

namespace Sys2Proof.Machine

/-- Memory as (address, byte) pairs in one canonical form: addresses rising, no entry equal to what an
unlisted address reads as. The operations on it, and the predicate of the form, are in
Machine/Memory.lean. -/
abbrev Memory := List Host.Cell

/-- The Processor State: "exactly (A, X, Y, SP, PC, P, M)" (R20). Whether to stop is the result of a step
and no part of it (Machine/Result.lean). -/
structure State where
  /-- A, the accumulator (R10). -/
  a : Byte
  /-- X, an index register (R11). -/
  x : Byte
  /-- Y, an index register (R12). -/
  y : Byte
  /-- SP, the stack pointer, an index into page one (R13). -/
  sp : Byte
  /-- PC, the program counter: between steps, the address of the next opcode byte (R14). -/
  pc : Addr
  /-- P, the flags byte N V - - D I Z C, all eight bits stored (R15). -/
  p : Byte
  /-- M, the one memory of 65536 bytes (R17). -/
  mem : Memory
  deriving DecidableEq, Repr

/-- The reasons a step may fault. There is none: "the core raises no fault" (R2, R200), so the type has
no constructor and no step can fault. Safe. -/
inductive Fault
  deriving DecidableEq, Repr

/-- The reasons a step may be refused. -/
inductive Refusal where
  /-- Raised by `exec` for an instruction that has no meaning yet. Every instruction has one, so nothing
  raises it. Safe: it stops where the machine goes on. -/
  | notModelled (mnemonic : String)
  deriving DecidableEq, Repr

/-- The state right after reset (R21, R220). -/
def State.reset : State where
  a := 0x00
  x := 0x00
  y := 0x00
  sp := 0xFF
  pc := 0x0000
  p := 0x00
  mem := []

end Sys2Proof.Machine
end

