-- ==== Sys2Proof/Machine/Memory.lean ====
section
/-! DEFINITION. Memory: one space of 65536 bytes, every one readable and writable, one byte an access
(10_state.md R17; 20_memory.md R30, R36, R38). A list in canonical form; the read and the write obey
the read-over-write laws on every list, canonical or not. -/

namespace Sys2Proof.Machine

/-- What an address that nothing has written reads as: memory is zero-filled at creation (R21, R36). -/
def Memory.unlisted : Byte := 0x00

/-- The byte at an address (R36). -/
def Memory.readNat : Memory → Nat → Byte
  | [], _ => Memory.unlisted
  | (k, b) :: rest, a => if k = a then b else Memory.readNat rest a

/-- Add an entry before the first entry of a higher address. -/
def Memory.insertCell : Memory → Nat → Byte → Memory
  | [], a, v => [(a, v)]
  | (k, b) :: rest, a, v =>
    if a < k then (a, v) :: (k, b) :: rest else (k, b) :: Memory.insertCell rest a v

/-- Drop the entries of one address. -/
def Memory.erase (m : Memory) (a : Nat) : Memory := m.filter (fun c => c.1 != a)

/-- Store a byte: exactly one address changes (R36). Storing what an unlisted address reads as leaves
no entry. -/
def Memory.writeNat (m : Memory) (a : Nat) (v : Byte) : Memory :=
  if v = Memory.unlisted then m.erase a else (m.erase a).insertCell a v

/-- `MemRead(a, 1)` (00_scope.md section 5). -/
def Memory.read (m : Memory) (a : Addr) : Byte := Memory.readNat m a.toNat

/-- `MemWrite(a, 1, v)` (00_scope.md section 5). -/
def Memory.write (m : Memory) (a : Addr) (v : Byte) : Memory := Memory.writeNat m a.toNat v

/-- `MemRead(a, 2)`: the low byte at `a`, the high byte at the next address modulo 65536 (R34). -/
def Memory.readWord (m : Memory) (a : Addr) : Addr := word (m.read (a + 1)) (m.read a)

/-- The canonical form: addresses strictly rising and inside the 65536 bytes, no entry equal to what an
unlisted address reads as. -/
abbrev Memory.wf (m : Memory) : Prop :=
  m.Pairwise (fun c d => c.1 < d.1) ∧ ∀ c ∈ m, c.1 < Config.memorySize ∧ c.2 ≠ Memory.unlisted

end Sys2Proof.Machine
end

