-- ==== Sys2Proof/Machine/Ops.lean ====
section
/-! DEFINITION. The named operations over registers, memory and the stack; the halt path, which is the
core's one trap-like event, and the return beside it. -/

namespace Sys2Proof.Machine

/-! ### Registers -/

/-- The four byte registers an instruction names; P and PC are reached by their own rules. -/
inductive Reg where
  | a | x | y | sp
  deriving DecidableEq, Repr

/-- A register's value (R10 to R13); no register is hard-wired (R24). -/
def State.reg (c : State) : Reg → Byte
  | .a => c.a
  | .x => c.x
  | .y => c.y
  | .sp => c.sp

/-- Write one register; no other changes (R24). -/
def State.setReg (c : State) (r : Reg) (v : Byte) : State :=
  match r with
  | .a => { c with a := v }
  | .x => { c with x := v }
  | .y => { c with y := v }
  | .sp => { c with sp := v }

/-- `PC <- u16(PC + n)` (R3, R14). -/
def State.advance (n : Nat) (c : State) : State := { c with pc := c.pc + BitVec.ofNat 16 n }

/-! ### Memory -/

/-- `MemRead(a, 1)`: no side effect (R36). -/
def State.read (c : State) (a : Addr) : Byte := c.mem.read a

/-- `MemWrite(a, 1, v)`: one byte changes, at once (R36, R41). -/
def State.write (c : State) (a : Addr) (v : Byte) : State := { c with mem := c.mem.write a v }

/-- Store bytes at consecutive addresses, which wrap at 65536 (R223). -/
def State.writeBytes (a : Addr) : List Byte → State → State
  | [], c => c
  | b :: rest, c => State.writeBytes (a + 1) rest (c.write a b)

/-! ### The stack: page one, indexed by SP, SP wrapping inside the byte (R13, R32) -/

/-- The stack cell SP value `sp` designates: `0x0100 + sp` (R13). -/
def stackAddr (sp : Byte) : Addr := Config.stackBase + zext16 sp

/-- `Push(b)`: store at SP, then decrement SP (R103). -/
def push (b : Byte) (c : State) : State :=
  { c.write (stackAddr c.sp) b with sp := c.sp - 1 }

/-- `Pop()`: increment SP, then read at SP (R104). -/
def pop (c : State) : Byte × State :=
  let c := { c with sp := c.sp + 1 }
  (c.read (stackAddr c.sp), c)

/-- `PushWord(w)`: the high byte, then the low byte (R105). -/
def pushWord (w : Addr) (c : State) : State := push (loByte w) (push (hiByte w) c)

/-- `PopWord()`: the low byte is popped first (R106). -/
def popWord (c : State) : Addr × State :=
  let lo := pop c
  let hi := pop lo.2
  (word hi.1 lo.1, hi.2)

/-! ### The halt path and the return -/

/-- The halt path of R183, statement by statement: `PC0 + 2` is pushed, PC comes back to `PC0`, P is
pushed as it stands (bits 5 and 4 not forced; R19, the spec's decision D22, log entry 21), then I is
set. No vector is fetched and no handler entered (R202). -/
def haltPath (c : State) : State :=
  let c := c.advance 2
  let c := pushWord c.pc c
  let c := { c with pc := c.pc - 2 }
  let c := push c.p c
  { c with p := setFlag .i c.p }

/-- The return of R159: P is popped, all eight bits; then a word is popped and PC is that word plus 1. -/
def returnFromHalt (c : State) : State :=
  let flags := pop c
  let c := { flags.2 with p := flags.1 }
  let w := popWord c
  { w.2 with pc := w.1 + 1 }

end Sys2Proof.Machine
end

