-- ==== Sys2Proof/Machine/Operands.lean ====
section
/-! DEFINITION. The addressing-mode resolver (40_addressing_modes.md): effective addresses, the advance
of PC that is a side effect of resolution (R70), and the operand forms the dispatch cases handle
themselves (R71, R80 to R83). PC is `PC0`, the address of the opcode byte, when an instruction's
meaning begins. -/

namespace Sys2Proof.Machine

/-- The word stored at a zero-page address: its high byte comes from the next address, which is 0x0100
for 0xFF, with no wrap into the zero page (R31; the spec's decisions D8 and D9; log entries 9, 10). -/
def zeroPagePointer (c : State) (z : Byte) : Addr := c.mem.readWord (zext16 z)

/-- The effective address of a memory operand (R72 to R79). -/
def effectiveAddress (c : State) : MemMode → Addr
  | .zp l => zext16 l
  | .zpx l => zext16 (l + c.x)
  | .zpy l => zext16 (l + c.y)
  | .abs w => w
  | .absx w => w + zext16 c.x
  | .absy w => w + zext16 c.y
  | .indx l => zeroPagePointer c (l + c.x)
  | .indy l => zeroPagePointer c l + zext16 c.y

/-- The length of an instruction with this memory operand (R50): the opcode and the operand bytes. -/
def memLength : MemMode → Nat
  | .zp _ | .zpx _ | .zpy _ | .indx _ | .indy _ => 2
  | .abs _ | .absx _ | .absy _ => 3

/-- The resolver (R70): the effective address, and PC past the instruction. -/
def resolve (m : MemMode) (c : State) : Addr × State :=
  (effectiveAddress c m, c.advance (memLength m))

/-- `operand(mode)` (42_load_store_transfer.md, head): the immediate byte, or the byte at the effective
address, and PC past the instruction. -/
def readOperand (o : Src) (c : State) : Byte × State :=
  match o with
  | .imm l => (l, c.advance 2)
  | .mem m =>
    let r := resolve m c
    (r.2.read r.1, r.2)

/-- A primitive on a memory operand: one read, then one write of the final value to the same address
(R107). -/
def modifyMem (prim : Byte → Byte → Byte × Byte) (m : MemMode) (c : State) : State :=
  let r := resolve m c
  let out := prim (r.2.read r.1) r.2.p
  { r.2.write r.1 out.1 with p := out.2 }

/-- A primitive on a register operand, `R <- Prim(R)` (R107), of a one-byte instruction (R80, R81). -/
def modifyReg (prim : Byte → Byte → Byte × Byte) (r : Reg) (c : State) : State :=
  let out := prim (c.reg r) c.p
  { (c.setReg r out.1).advance 1 with p := out.2 }

/-- A primitive on the operand of a shift or rotate. -/
def modifyTarget (prim : Byte → Byte → Byte × Byte) (t : Target) (c : State) : State :=
  match t with
  | .acc => modifyReg prim .a c
  | .mem m => modifyMem prim m c

/-- The pointer of JMP indirect: the low byte at `p`, the high byte at `u16(p + 1)`, no page quirk (R83;
the spec's decision D7; log entry 8). -/
def indirectTarget (p : Addr) (c : State) : Addr := c.mem.readWord p

/-- The common rule of the branches (R82, R160): PC past the two bytes first, then the signed
displacement if the condition holds. -/
def branch (cond : Bool) (d : Byte) (c : State) : State :=
  let c := c.advance 2
  if cond then { c with pc := c.pc + sext16 d } else c

/-- The length of an instruction (R50, R58). -/
def instrLength : Instr → Nat
  | .lda o | .ldx o | .ldy o | .cmp o | .cpx o | .cpy o
  | .and o | .ora o | .eor o | .adc o | .sbc o =>
    match o with
    | .imm _ => 2
    | .mem m => memLength m
  | .sta m | .stx m | .sty m | .inc m | .dec m => memLength m
  | .asl t | .lsr t | .rol t | .ror t =>
    match t with
    | .acc => 1
    | .mem m => memLength m
  | .tax | .txa | .tay | .tya | .tsx | .txs | .inx | .iny | .dex | .dey => 1
  | .jmpAbs _ | .jmpInd _ | .jsr _ => 3
  | .bcc _ | .bcs _ | .beq _ | .bne _ | .bmi _ | .bpl _ | .bvc _ | .bvs _ => 2
  | .rts | .rti | .sec | .clc | .sed | .cld | .sei | .cli | .clv | .nop | .brk => 1
  | .unrecognized _ => 1

end Sys2Proof.Machine
end

