-- ==== Sys2Proof/Machine/ControlFlow.lean ====
section
/-! DEFINITION. Jumps, calls, returns and branches (45_control_flow.md). The flag and polarity each branch tests
is the conventional reading (PRESUMED; the spec's decision D5; log entry 4). -/

namespace Sys2Proof.Machine

/-- Push `PC0 + 2` and go to the target, which was computed before the pushes (R39). JSR (R157, conflict
C2), and JMP like it (R155, R156; the spec's decision D6; log entry 7). -/
def call (target : Addr) (c : State) : State :=
  { pushWord (c.pc + 2) c with pc := target }

/-- RTS: the popped word plus 1 (R158). -/
def returnFromCall (c : State) : State :=
  let w := popWord c
  { w.2 with pc := w.1 + 1 }

/-- JMP absolute (R155): it does what JSR does. -/
def execJmpAbs (target : Addr) (s : State) : Host.Outcome State Fault Refusal :=
  .next (call target s)

/-- JMP indirect (R156): the pointer is read before the pushes. -/
def execJmpInd (pointer : Addr) (s : State) : Host.Outcome State Fault Refusal :=
  .next (call (indirectTarget pointer s) s)

/-- JSR (R157). -/
def execJsr (target : Addr) (s : State) : Host.Outcome State Fault Refusal :=
  .next (call target s)

/-- RTS (R158). -/
def execRts (s : State) : Host.Outcome State Fault Refusal :=
  .next (returnFromCall s)

/-- RTI (R159). -/
def execRti (s : State) : Host.Outcome State Fault Refusal :=
  .next (returnFromHalt s)

/-- BCC (R161): branch if P.C = 0. -/
def execBcc (d : Byte) (s : State) : Host.Outcome State Fault Refusal :=
  .next (branch (!getFlag .c s.p) d s)

/-- BCS (R162): branch if P.C = 1. -/
def execBcs (d : Byte) (s : State) : Host.Outcome State Fault Refusal :=
  .next (branch (getFlag .c s.p) d s)

/-- BEQ (R163): branch if P.Z = 1. -/
def execBeq (d : Byte) (s : State) : Host.Outcome State Fault Refusal :=
  .next (branch (getFlag .z s.p) d s)

/-- BNE (R164): branch if P.Z = 0. -/
def execBne (d : Byte) (s : State) : Host.Outcome State Fault Refusal :=
  .next (branch (!getFlag .z s.p) d s)

/-- BMI (R165): branch if P.N = 1. -/
def execBmi (d : Byte) (s : State) : Host.Outcome State Fault Refusal :=
  .next (branch (getFlag .n s.p) d s)

/-- BPL (R166): branch if P.N = 0. -/
def execBpl (d : Byte) (s : State) : Host.Outcome State Fault Refusal :=
  .next (branch (!getFlag .n s.p) d s)

/-- BVC (R167): branch if P.V = 0. -/
def execBvc (d : Byte) (s : State) : Host.Outcome State Fault Refusal :=
  .next (branch (!getFlag .v s.p) d s)

/-- BVS (R168): branch if P.V = 1. -/
def execBvs (d : Byte) (s : State) : Host.Outcome State Fault Refusal :=
  .next (branch (getFlag .v s.p) d s)

end Sys2Proof.Machine
end

