-- ==== Sys2Proof/Machine/FlagNopBrk.lean ====
section
/-! DEFINITION. The flag instructions, NOP, BRK and the unrecognized opcodes (46_flags_nop_brk.md). Which flag a
mnemonic names is the conventional reading (PRESUMED; the spec's decision D5; log entry 4). -/

namespace Sys2Proof.Machine

/-- A one-byte instruction that writes one flag (R91, R175 to R181). -/
def flagOp (f : Flag) (b : Bool) (c : State) : State :=
  { c.advance 1 with p := putFlag f b c.p }

/-- SEC (R175). -/
def execSec (s : State) : Host.Outcome State Fault Refusal :=
  .next (flagOp .c true s)

/-- CLC (R176). -/
def execClc (s : State) : Host.Outcome State Fault Refusal :=
  .next (flagOp .c false s)

/-- SED (R177). -/
def execSed (s : State) : Host.Outcome State Fault Refusal :=
  .next (flagOp .d true s)

/-- CLD (R178). -/
def execCld (s : State) : Host.Outcome State Fault Refusal :=
  .next (flagOp .d false s)

/-- SEI (R179). -/
def execSei (s : State) : Host.Outcome State Fault Refusal :=
  .next (flagOp .i true s)

/-- CLI (R180). -/
def execCli (s : State) : Host.Outcome State Fault Refusal :=
  .next (flagOp .i false s)

/-- CLV (R181). -/
def execClv (s : State) : Host.Outcome State Fault Refusal :=
  .next (flagOp .v false s)

/-- NOP (R182): "PC += 1, no other effect". -/
def execNop (s : State) : Host.Outcome State Fault Refusal :=
  .next (s.advance 1)

/-- BRK (R183): the halt path. -/
def execBrk (s : State) : Host.Outcome State Fault Refusal :=
  .next (haltPath s)

/-- An unrecognized opcode (R184): the halt path. The byte is not recorded anywhere; PC still points at
it. -/
def execUnrecognized (_op : Byte) (s : State) : Host.Outcome State Fault Refusal :=
  .next (haltPath s)

end Sys2Proof.Machine
end

