-- ==== Sys2Proof/Machine/IncCompare.lean ====
section
/-! DEFINITION. Increment, decrement and compare (43_incdec_compare.md). Which register a mnemonic names is the
conventional reading (PRESUMED; the spec's decision D5; log entry 4). -/

namespace Sys2Proof.Machine

/-- A compare of a register with the operand: only P and PC change (R131 to R133). -/
def compareReg (r : Reg) (o : Src) (c : State) : State :=
  let b := readOperand o c
  { b.2 with p := compare (b.2.reg r) b.1 b.2.p }

/-- INC (R125). -/
def execInc (m : MemMode) (s : State) : Host.Outcome State Fault Refusal :=
  .next (modifyMem increment m s)

/-- DEC (R126). -/
def execDec (m : MemMode) (s : State) : Host.Outcome State Fault Refusal :=
  .next (modifyMem decrement m s)

/-- INX (R127). -/
def execInx (s : State) : Host.Outcome State Fault Refusal :=
  .next (modifyReg increment .x s)

/-- INY (R128). -/
def execIny (s : State) : Host.Outcome State Fault Refusal :=
  .next (modifyReg increment .y s)

/-- DEX (R129). -/
def execDex (s : State) : Host.Outcome State Fault Refusal :=
  .next (modifyReg decrement .x s)

/-- DEY (R130). -/
def execDey (s : State) : Host.Outcome State Fault Refusal :=
  .next (modifyReg decrement .y s)

/-- CMP (R131). -/
def execCmp (o : Src) (s : State) : Host.Outcome State Fault Refusal :=
  .next (compareReg .a o s)

/-- CPX (R132). -/
def execCpx (o : Src) (s : State) : Host.Outcome State Fault Refusal :=
  .next (compareReg .x o s)

/-- CPY (R133). -/
def execCpy (o : Src) (s : State) : Host.Outcome State Fault Refusal :=
  .next (compareReg .y o s)

end Sys2Proof.Machine
end

