-- ==== Sys2Proof/Machine/LoadStore.lean ====
section
/-! DEFINITION. The loads, stores and transfers (42_load_store_transfer.md). Which register a mnemonic names is
the conventional reading (PRESUMED; the spec's decision D5; log entry 4). -/

namespace Sys2Proof.Machine

/-- A load: the operand into a register, then `setNZ` of it. -/
def loadReg (r : Reg) (o : Src) (c : State) : State :=
  let v := readOperand o c
  { v.2.setReg r v.1 with p := setNZ v.1 v.2.p }

/-- A store: the register's byte to the effective address; no data byte is read and no flag written. -/
def storeReg (r : Reg) (m : MemMode) (c : State) : State :=
  let e := resolve m c
  e.2.write e.1 (e.2.reg r)

/-- A transfer that runs `setNZ`: every one but TXS (R92). -/
def transferReg (src dst : Reg) (c : State) : State :=
  { (c.setReg dst (c.reg src)).advance 1 with p := setNZ (c.reg src) c.p }

/-- LDA (R110). -/
def execLda (o : Src) (s : State) : Host.Outcome State Fault Refusal :=
  .next (loadReg .a o s)

/-- LDX (R111). -/
def execLdx (o : Src) (s : State) : Host.Outcome State Fault Refusal :=
  .next (loadReg .x o s)

/-- LDY (R112). -/
def execLdy (o : Src) (s : State) : Host.Outcome State Fault Refusal :=
  .next (loadReg .y o s)

/-- STA (R113). -/
def execSta (m : MemMode) (s : State) : Host.Outcome State Fault Refusal :=
  .next (storeReg .a m s)

/-- STX (R114). -/
def execStx (m : MemMode) (s : State) : Host.Outcome State Fault Refusal :=
  .next (storeReg .x m s)

/-- STY (R115). -/
def execSty (m : MemMode) (s : State) : Host.Outcome State Fault Refusal :=
  .next (storeReg .y m s)

/-- TAX (R116). -/
def execTax (s : State) : Host.Outcome State Fault Refusal :=
  .next (transferReg .a .x s)

/-- TXA (R117). -/
def execTxa (s : State) : Host.Outcome State Fault Refusal :=
  .next (transferReg .x .a s)

/-- TAY (R118). -/
def execTay (s : State) : Host.Outcome State Fault Refusal :=
  .next (transferReg .a .y s)

/-- TYA (R119). -/
def execTya (s : State) : Host.Outcome State Fault Refusal :=
  .next (transferReg .y .a s)

/-- TSX (R120). -/
def execTsx (s : State) : Host.Outcome State Fault Refusal :=
  .next (transferReg .sp .x s)

/-- TXS (R121): no flag is written. -/
def execTxs (s : State) : Host.Outcome State Fault Refusal :=
  .next ((s.setReg .sp s.x).advance 1)

end Sys2Proof.Machine
end

