-- ==== Sys2Proof/Machine/LogicArith.lean ====
section
/-! DEFINITION. Logic, shifts, rotates and arithmetic (44_logic_shift_arith.md). That AND, ORA and EOR are the
bitwise operations of those names is the conventional reading (PRESUMED; the spec's decision D5; log
entry 4). -/

namespace Sys2Proof.Machine

/-- An operation on A and the operand that also computes P: `op A b P` is A and P after. -/
def accumulate (op : Byte → Byte → Byte → Byte × Byte) (o : Src) (c : State) : State :=
  let b := readOperand o c
  let out := op b.2.a b.1 b.2.p
  { b.2 with a := out.1, p := out.2 }

/-- A bitwise operation that writes no flag: AND's quirk (R92, R140). -/
def silently (f : Byte → Byte → Byte) (a b p : Byte) : Byte × Byte := (f a b, p)

/-- A bitwise operation followed by `setNZ` (R141, R142). -/
def withNZ (f : Byte → Byte → Byte) (a b p : Byte) : Byte × Byte := (f a b, setNZ (f a b) p)

/-- AND (R140): A changes and no flag does. -/
def execAnd (o : Src) (s : State) : Host.Outcome State Fault Refusal :=
  .next (accumulate (silently (· &&& ·)) o s)

/-- ORA (R141). -/
def execOra (o : Src) (s : State) : Host.Outcome State Fault Refusal :=
  .next (accumulate (withNZ (· ||| ·)) o s)

/-- EOR (R142). -/
def execEor (o : Src) (s : State) : Host.Outcome State Fault Refusal :=
  .next (accumulate (withNZ (· ^^^ ·)) o s)

/-- ASL (R143). -/
def execAsl (t : Target) (s : State) : Host.Outcome State Fault Refusal :=
  .next (modifyTarget shiftLeft t s)

/-- LSR (R144). -/
def execLsr (t : Target) (s : State) : Host.Outcome State Fault Refusal :=
  .next (modifyTarget shiftRight t s)

/-- ROL (R145). -/
def execRol (t : Target) (s : State) : Host.Outcome State Fault Refusal :=
  .next (modifyTarget rotateLeft t s)

/-- ROR (R146). -/
def execRor (t : Target) (s : State) : Host.Outcome State Fault Refusal :=
  .next (modifyTarget rotateRight t s)

/-- ADC (R147). -/
def execAdc (o : Src) (s : State) : Host.Outcome State Fault Refusal :=
  .next (accumulate add o s)

/-- SBC (R148). -/
def execSbc (o : Src) (s : State) : Host.Outcome State Fault Refusal :=
  .next (accumulate sub o s)

end Sys2Proof.Machine
end

