-- ==== Sys2Proof/Machine/Dispatch.lean ====
section
/-! DEFINITION. The dispatch engine: the meaning of each instruction, one arm for each constructor
(00_scope.md R4; 30_encoding.md R51). -/

namespace Sys2Proof.Machine

def exec (i : Instr) (s : State) : Host.Outcome State Fault Refusal :=
  match i with
  | .lda o => Sys2Proof.Machine.execLda o s
  | .ldx o => Sys2Proof.Machine.execLdx o s
  | .ldy o => Sys2Proof.Machine.execLdy o s
  | .sta m => Sys2Proof.Machine.execSta m s
  | .stx m => Sys2Proof.Machine.execStx m s
  | .sty m => Sys2Proof.Machine.execSty m s
  | .tax => Sys2Proof.Machine.execTax s
  | .txa => Sys2Proof.Machine.execTxa s
  | .tay => Sys2Proof.Machine.execTay s
  | .tya => Sys2Proof.Machine.execTya s
  | .tsx => Sys2Proof.Machine.execTsx s
  | .txs => Sys2Proof.Machine.execTxs s
  | .inc m => Sys2Proof.Machine.execInc m s
  | .dec m => Sys2Proof.Machine.execDec m s
  | .inx => Sys2Proof.Machine.execInx s
  | .iny => Sys2Proof.Machine.execIny s
  | .dex => Sys2Proof.Machine.execDex s
  | .dey => Sys2Proof.Machine.execDey s
  | .cmp o => Sys2Proof.Machine.execCmp o s
  | .cpx o => Sys2Proof.Machine.execCpx o s
  | .cpy o => Sys2Proof.Machine.execCpy o s
  | .and o => Sys2Proof.Machine.execAnd o s
  | .ora o => Sys2Proof.Machine.execOra o s
  | .eor o => Sys2Proof.Machine.execEor o s
  | .asl t => Sys2Proof.Machine.execAsl t s
  | .lsr t => Sys2Proof.Machine.execLsr t s
  | .rol t => Sys2Proof.Machine.execRol t s
  | .ror t => Sys2Proof.Machine.execRor t s
  | .adc o => Sys2Proof.Machine.execAdc o s
  | .sbc o => Sys2Proof.Machine.execSbc o s
  | .jmpAbs target => Sys2Proof.Machine.execJmpAbs target s
  | .jmpInd pointer => Sys2Proof.Machine.execJmpInd pointer s
  | .jsr target => Sys2Proof.Machine.execJsr target s
  | .rts => Sys2Proof.Machine.execRts s
  | .rti => Sys2Proof.Machine.execRti s
  | .bcc d => Sys2Proof.Machine.execBcc d s
  | .bcs d => Sys2Proof.Machine.execBcs d s
  | .beq d => Sys2Proof.Machine.execBeq d s
  | .bne d => Sys2Proof.Machine.execBne d s
  | .bmi d => Sys2Proof.Machine.execBmi d s
  | .bpl d => Sys2Proof.Machine.execBpl d s
  | .bvc d => Sys2Proof.Machine.execBvc d s
  | .bvs d => Sys2Proof.Machine.execBvs d s
  | .sec => Sys2Proof.Machine.execSec s
  | .clc => Sys2Proof.Machine.execClc s
  | .sed => Sys2Proof.Machine.execSed s
  | .cld => Sys2Proof.Machine.execCld s
  | .sei => Sys2Proof.Machine.execSei s
  | .cli => Sys2Proof.Machine.execCli s
  | .clv => Sys2Proof.Machine.execClv s
  | .nop => Sys2Proof.Machine.execNop s
  | .brk => Sys2Proof.Machine.execBrk s
  | .unrecognized op => Sys2Proof.Machine.execUnrecognized op s

end Sys2Proof.Machine
end

