-- ==== Sys2Proof/Machine/Fetch.lean ====
section
/-! DEFINITION. Fetching the instruction at PC (00_scope.md R4; 20_memory.md R41; 30_encoding.md R50 to
R54). -/

namespace Sys2Proof.Machine

/-- The instruction at PC: the opcode byte, looked up whole, and the operand bytes its format has, at the
next addresses modulo 65536 (R52; the spec's decision D13; log entry 14). Every byte is read from memory
now (R41), and no byte past the format's length is read (R58, R183). -/
def fetch (c : State) : Instr :=
  match opcodeEntry (c.read c.pc) with
  | .one i => i
  | .byte make => make (c.read (c.pc + 1))
  | .word make => make (word (c.read (c.pc + 2)) (c.read (c.pc + 1)))

end Sys2Proof.Machine
end

