-- ==== Sys2Proof/Machine/Result.lean ====
section
/-! DEFINITION. `continue`, the one-bit result of a step: "whether to stop is the result of a step, not a
piece of state" (10_state.md R20; 46_flags_nop_brk.md R183 to R185). -/

namespace Sys2Proof.Machine

/-- `continue` of an instruction: false on the halt path, true of every recognized opcode but BRK
(R185). -/
def continueOf : Instr → Bool
  | .brk | .unrecognized _ => false
  | .lda _ | .ldx _ | .ldy _ | .sta _ | .stx _ | .sty _ => true
  | .tax | .txa | .tay | .tya | .tsx | .txs => true
  | .inc _ | .dec _ | .inx | .iny | .dex | .dey | .cmp _ | .cpx _ | .cpy _ => true
  | .and _ | .ora _ | .eor _ | .asl _ | .lsr _ | .rol _ | .ror _ | .adc _ | .sbc _ => true
  | .jmpAbs _ | .jmpInd _ | .jsr _ | .rts | .rti => true
  | .bcc _ | .bcs _ | .beq _ | .bne _ | .bmi _ | .bpl _ | .bvc _ | .bvs _ => true
  | .sec | .clc | .sed | .cld | .sei | .cli | .clv | .nop => true

/-- `continue` of the step from `s`: that of the instruction at PC. -/
def stepContinue (s : State) : Bool := continueOf (fetch s)

/-- What one step yields: "a next state and a `continue` bit" (00_scope.md R2). -/
structure StepResult where
  state : State
  cont : Bool
  deriving DecidableEq, Repr

end Sys2Proof.Machine
end

