-- ==== Sys2Proof/Machine/Step.lean ====
section
/-! DEFINITION. One step: fetch the instruction at PC and perform it, as one indivisible transition
(00_scope.md R1, R4). -/

namespace Sys2Proof.Machine

/-- The one operation of the core, as far as it changes the Processor State. -/
def step (s : State) : Host.Outcome State Fault Refusal :=
  exec (fetch s) s

/-- The one operation of the core, whole: the next state with the `continue` bit (R1, R2). The host's
interface takes the state alone, which is `step`; the bit is `stepContinue`, of the same state before
(DESIGN CHOICE; log entry 1). -/
def stepResult (s : State) : Host.Outcome StepResult Fault Refusal :=
  match step s with
  | .next t => .next { state := t, cont := stepContinue s }
  | .fault r => nomatch r
  | .refused r => .refused r

/-- `s` with a word of the opcode table stored at PC, where the next step fetches: three bytes, the
longest instruction, those above `nbits` zero. Nothing else changes. -/
def State.withFetchWord (s : State) (nbits w : Nat) : State :=
  s.writeBytes s.pc (tableWordBytes nbits w)

end Sys2Proof.Machine
end

