-- ==== Sys2Proof/Machine/HostPort.lean ====
section
/-! DEFINITION. What stands around the core: the loader boundary, the host between two steps, and the run
(10_state.md R22, R23; 70_reset_and_hazards.md R222 to R228). The spec's open parameters `IMAGE` and
`HOST_WRITES` are arguments here; `step` itself takes no input. -/

namespace Sys2Proof.Machine

/-! ### The loader -/

/-- A program image: `IMAGE` of 00_scope.md section 4. -/
structure Image where
  base : Addr
  bytes : List Byte
  deriving DecidableEq, Repr

/-- The image in a file's bytes: a little-endian load address, then the bytes (R223). DESIGN CHOICE (log
entry 24): a file of fewer than two bytes has no load address and is a failed load. -/
def Image.parse : List Byte → Option Image
  | lo :: hi :: bytes => some { base := word hi lo, bytes := bytes }
  | _ => none

/-- Copy the image into memory, addresses wrapping, and set PC to the load address (R223; the spec's
decision D17; log entry 17). No other register is touched. -/
def loadImage (image : Image) (c : State) : State :=
  { c.writeBytes image.base image.bytes with pc := image.base }

/-- What a load reports, and the Processor State after it. -/
structure LoadResult where
  ok : Bool
  state : State
  deriving DecidableEq, Repr

/-- The external loader: `none` is a file that is missing or cannot be read. A failure is reported and
leaves the Processor State unchanged (R224). -/
def loadFile (file : Option (List Byte)) (c : State) : LoadResult :=
  match file.bind Image.parse with
  | some image => { ok := true, state := loadImage image c }
  | none => { ok := false, state := c }

/-! ### The host between two steps (R226) -/

/-- `readRegisters()`: the read-only register snapshot (R22). -/
structure Snapshot where
  a : Byte
  x : Byte
  y : Byte
  sp : Byte
  pc : Addr
  flags : Byte
  deriving DecidableEq, Repr

/-- Take the snapshot; it changes nothing (R22). -/
def readRegisters (s : State) : Snapshot :=
  { a := s.a, x := s.x, y := s.y, sp := s.sp, pc := s.pc, flags := s.p }

/-- The host reads a byte of memory. -/
def hostRead (s : State) (a : Addr) : Byte := s.read a

/-- The host writes a byte of memory. It writes no register (R22, R226). -/
def hostWrite (s : State) (a : Addr) (v : Byte) : State := s.write a v

/-- The writes of one step boundary, in order: one entry of `HOST_WRITES`. -/
def hostWrites (writes : List (Addr × Byte)) (s : State) : State :=
  writes.foldl (fun s w => hostWrite s w.1 w.2) s

/-! ### The run (R227) -/

/-- The launch state: reset, then the loader if there is an image, then the host's writes (R227). -/
def launch (image : Option Image) (writes : List (Addr × Byte)) : State :=
  hostWrites writes (match image with
    | some image => loadImage image State.reset
    | none => State.reset)

/-- How far a run has come. -/
inductive RunEnd where
  /-- A step returned `continue = false`: the state it left is the final state. -/
  | final (s : State)
  /-- The host has ceased to call `step`; no step has returned false. -/
  | running (s : State)
  /-- A step was refused; no step of this machine is. -/
  | refused (r : Refusal)
  deriving DecidableEq, Repr

/-- At most `k` steps, ended by the first whose `continue` is false (R227); before each step the host
makes the next boundary's writes, none when the list is over. -/
def run : Nat → List (List (Addr × Byte)) → State → RunEnd
  | 0, _, s => .running s
  | k + 1, boundaries, s =>
    match stepResult (hostWrites (boundaries.headD []) s) with
    | .next r => if r.cont then run k boundaries.tail r.state else .final r.state
    | .fault r => nomatch r
    | .refused r => .refused r

/-! ### Several instances (R23) -/

/-- One step of instance `k` of several; instances share nothing. -/
def stepInstance (k : Nat) (instances : List State) : List State :=
  instances.modify k fun s =>
    match step s with
    | .next t => t
    | .fault r => nomatch r
    | .refused _ => s

end Sys2Proof.Machine
end

