-- ==== Sys2Proof/Safety.lean ====
section
/-! DEFINITION. What a claim means by a safe run. The core has no error state (00_scope.md R2), so
safety is two things: every step answers a next state, and the model's memory keeps the one form in
which equal memories are equal data. -/

namespace Sys2Proof.Machine

/-- The relation between fields of State that every step keeps: memory is in canonical form. There is no
other: "every 8-bit value is a legal content of A, X, Y, SP and P, every 16-bit value a legal PC" (R3). -/
abbrev State.Inv (s : State) : Prop := s.mem.wf

/-- `s` steps to `t`. -/
def Steps (s t : State) : Prop := step s = .next t

/-- `t` is reached from `s` by some number of steps, with writes of the host and loads between them
(R223, R226). -/
inductive Reaches (s : State) : State → Prop where
  | here : Reaches s s
  | next {t u : State} : Reaches s t → Steps t u → Reaches s u
  | write {t : State} (a : Addr) (v : Byte) : Reaches s t → Reaches s (hostWrite t a v)
  | load {t : State} (file : Option (List Byte)) : Reaches s t → Reaches s (loadFile file t).state

/-- A state from which every reachable state meets the invariant and has a next state. -/
def Safe (s : State) : Prop := ∀ t, Reaches s t → t.Inv ∧ ∃ u, Steps t u

end Sys2Proof.Machine
end

