-- ==== Sys2Proof/Certificates/Slice0/Obligations.lean ====
section
/-! DEFINITION. The statements about the model. Each says in its own terms (bits of P by number, byte
arithmetic on natural numbers) what a rule of the spec says, so that a slip in the model's own
definitions would make it false. The words every statement shares stand first. -/

namespace Sys2Proof.Claims

open Sys2Proof.Machine

/-- P `after` is P `before` except at the listed bits, which have the listed values. Bits are numbered
as R15 numbers them: 7 N, 6 V, 5 and 4 unused, 3 D, 2 I, 1 Z, 0 C. -/
def FlagsAre (before after : Byte) (changed : List (Nat × Bool)) : Prop :=
  ∀ k, k < 8 → after.getLsbD k = (changed.lookup k).getD (before.getLsbD k)

/-- N and Z of a result byte (R90). -/
def nz (v : Byte) : List (Nat × Bool) := [(7, v.getLsbD 7), (1, decide (v = 0))]

/-- `P.C` as 0 or 1. -/
def carryOf (p : Byte) : Nat := (p.getLsbD 0).toNat

/-- The byte at one address is `v` and every other byte of memory is unchanged. -/
def StoresOnly (before after : State) (a : Addr) (v : Byte) : Prop :=
  after.read a = v ∧ ∀ b, b ≠ a → after.read b = before.read b

/-- A word was pushed: its high byte at the old SP, its low byte one below (SP wrapping inside the
byte), no other byte of memory changed. -/
def PushesWord (before after : State) (w : Nat) : Prop :=
  (after.read (stackAddr before.sp)).toNat = w / 256 ∧
  (after.read (stackAddr (before.sp - 1))).toNat = w % 256 ∧
  ∀ b, b ≠ stackAddr before.sp → b ≠ stackAddr (before.sp - 1) → after.read b = before.read b

/-- The operand byte of an instruction that reads one: immediate, or at the effective address. -/
def operandByte (c : State) : Src → Byte
  | .imm l => l
  | .mem m => c.read (effectiveAddress c m)

/-- PC past the instruction. -/
def nextPc (i : Instr) (c : State) : Addr := c.pc + BitVec.ofNat 16 (instrLength i)

/-- `i` completes with `continue = true`, changing the accumulator, the listed bits of P, and PC to the
next instruction; nothing else changes. -/
def SetsA (i : Instr) (s : State) (r : Byte) (changed : List (Nat × Bool)) : Prop :=
  ∃ p, FlagsAre s.p p changed ∧
    exec i s = .next { s with a := r, p := p, pc := nextPc i s } ∧ continueOf i = true

/-- The same with X. -/
def SetsX (i : Instr) (s : State) (r : Byte) (changed : List (Nat × Bool)) : Prop :=
  ∃ p, FlagsAre s.p p changed ∧
    exec i s = .next { s with x := r, p := p, pc := nextPc i s } ∧ continueOf i = true

/-- The same with Y. -/
def SetsY (i : Instr) (s : State) (r : Byte) (changed : List (Nat × Bool)) : Prop :=
  ∃ p, FlagsAre s.p p changed ∧
    exec i s = .next { s with y := r, p := p, pc := nextPc i s } ∧ continueOf i = true

/-- `i` completes with `continue = true`, changing the listed bits of P and PC alone. -/
def SetsFlags (i : Instr) (s : State) (changed : List (Nat × Bool)) : Prop :=
  ∃ p, FlagsAre s.p p changed ∧
    exec i s = .next { s with p := p, pc := nextPc i s } ∧ continueOf i = true

/-- `i` completes with `continue = true`, storing `r` at the effective address of `m` and changing the
listed bits of P, and PC to the next instruction; no register and no other byte of memory changes. -/
def SetsCell (i : Instr) (m : MemMode) (s : State) (r : Byte) (changed : List (Nat × Bool)) : Prop :=
  ∃ t, exec i s = .next t ∧ continueOf i = true ∧ FlagsAre s.p t.p changed ∧
    StoresOnly s t (effectiveAddress s m) r ∧
    t = { s with p := t.p, pc := nextPc i s, mem := t.mem }

/-- `i`, a two-byte branch, completes with `continue = true` and changes PC alone: to PC0 + 2 plus the
signed displacement when taken, to PC0 + 2 when not, modulo 65536 (R160). -/
def Branches (i : Instr) (d : Byte) (s : State) (taken : Bool) : Prop :=
  exec i s = .next { s with pc := BitVec.ofInt 16 (s.pc.toNat + 2 + if taken then d.toInt else 0) } ∧
    continueOf i = true

/-- The flags of a left shift of `v`: N, Z of the shifted byte and C its old bit 7. -/
def leftFlags (v : Byte) : List (Nat × Bool) :=
  [(7, v.getLsbD 6), (1, decide (v.toNat * 2 % 256 = 0)), (0, v.getLsbD 7)]

/-- The flags of a right shift of `v`: N clear, Z of the shifted byte and C its old bit 0. -/
def rightFlags (v : Byte) : List (Nat × Bool) :=
  [(7, false), (1, decide (v.toNat / 2 = 0)), (0, v.getLsbD 0)]

/-- The flags of a compare of register `a` with operand `b` (R94). -/
def compareFlags (a b : Byte) : List (Nat × Bool) :=
  [(7, decide (a ≠ b) && a.getLsbD 7 && b.getLsbD 7), (1, decide (a = b)), (0, decide (b.toNat ≤ a.toNat))]

/-- The bits of P an instruction may write, all eight for RTI (the matrix of R16). -/
def flagsWritten : Instr → List Nat
  | .lda _ | .ldx _ | .ldy _ => [7, 1]
  | .sta _ | .stx _ | .sty _ => []
  | .tax | .txa | .tay | .tya | .tsx => [7, 1]
  | .txs => []
  | .inc _ | .dec _ | .inx | .iny | .dex | .dey => [7, 1]
  | .cmp _ | .cpx _ | .cpy _ => [7, 1, 0]
  | .and _ => []
  | .ora _ | .eor _ => [7, 1]
  | .asl _ | .lsr _ | .rol _ | .ror _ => [7, 1, 0]
  | .adc _ | .sbc _ => [7, 6, 1, 0]
  | .jmpAbs _ | .jmpInd _ | .jsr _ | .rts => []
  | .rti => [7, 6, 5, 4, 3, 2, 1, 0]
  | .bcc _ | .bcs _ | .beq _ | .bne _ | .bmi _ | .bpl _ | .bvc _ | .bvs _ => []
  | .sec | .clc => [0]
  | .sed | .cld => [3]
  | .sei | .cli => [2]
  | .clv => [6]
  | .nop => []
  | .brk | .unrecognized _ => [2]

/-- The byte registers an instruction may write (the register access summary of 10_state.md). -/
def registersWritten : Instr → List Reg
  | .lda _ | .txa | .tya | .and _ | .ora _ | .eor _ | .adc _ | .sbc _ => [.a]
  | .asl .acc | .lsr .acc | .rol .acc | .ror .acc => [.a]
  | .asl (.mem _) | .lsr (.mem _) | .rol (.mem _) | .ror (.mem _) => []
  | .ldx _ | .tax | .tsx | .inx | .dex => [.x]
  | .ldy _ | .tay | .iny | .dey => [.y]
  | .txs | .jsr _ | .jmpAbs _ | .jmpInd _ | .rts | .rti | .brk | .unrecognized _ => [.sp]
  | .sta _ | .stx _ | .sty _ | .inc _ | .dec _ | .cmp _ | .cpx _ | .cpy _ => []
  | .bcc _ | .bcs _ | .beq _ | .bne _ | .bmi _ | .bpl _ | .bvc _ | .bvs _ => []
  | .sec | .clc | .sed | .cld | .sei | .cli | .clv | .nop => []

/-- The addresses an instruction stores to, computed in the state before it (the table after R36). -/
def addressesWritten (c : State) : Instr → List Addr
  | .sta m | .stx m | .sty m | .inc m | .dec m => [effectiveAddress c m]
  | .asl (.mem m) | .lsr (.mem m) | .rol (.mem m) | .ror (.mem m) => [effectiveAddress c m]
  | .asl .acc | .lsr .acc | .rol .acc | .ror .acc => []
  | .jsr _ | .jmpAbs _ | .jmpInd _ => [stackAddr c.sp, stackAddr (c.sp - 1)]
  | .brk | .unrecognized _ => [stackAddr c.sp, stackAddr (c.sp - 1), stackAddr (c.sp - 2)]
  | .lda _ | .ldx _ | .ldy _ | .cmp _ | .cpx _ | .cpy _ => []
  | .and _ | .ora _ | .eor _ | .adc _ | .sbc _ => []
  | .tax | .txa | .tay | .tya | .tsx | .txs | .inx | .iny | .dex | .dey => []
  | .rts | .rti | .sec | .clc | .sed | .cld | .sei | .cli | .clv | .nop => []
  | .bcc _ | .bcs _ | .beq _ | .bne _ | .bmi _ | .bpl _ | .bvc _ | .bvs _ => []

/-- The instructions that do not simply go on to the next one: jumps, returns, branches, the halt path
(R5, R14). -/
def transfersControl : Instr → Bool
  | .jmpAbs _ | .jmpInd _ | .jsr _ | .rts | .rti | .brk | .unrecognized _ => true
  | .bcc _ | .bcs _ | .beq _ | .bne _ | .bmi _ | .bpl _ | .bvc _ | .bvs _ => true
  | .lda _ | .ldx _ | .ldy _ | .sta _ | .stx _ | .sty _ | .inc _ | .dec _ => false
  | .cmp _ | .cpx _ | .cpy _ | .and _ | .ora _ | .eor _ | .adc _ | .sbc _ => false
  | .asl _ | .lsr _ | .rol _ | .ror _ => false
  | .tax | .txa | .tay | .tya | .tsx | .txs | .inx | .iny | .dex | .dey => false
  | .sec | .clc | .sed | .cld | .sei | .cli | .clv | .nop => false

/-- The bytes that take the halt path: BRK and the 111 of R56. -/
def haltingByte (op : Byte) : Bool := op == 0x00 || unrecognizedOpcodes.contains op

/-- `n` applications of a rotate to a byte and P. -/
def rotations (rotate : Byte → Byte → Byte × Byte) : Nat → Byte × Byte → Byte × Byte
  | 0, s => s
  | n + 1, s => rotations rotate n (rotate s.1 s.2)

end Sys2Proof.Claims

open Sys2Proof Sys2Proof.Machine Sys2Proof.Claims

/-! ### Encoding -/

/-- Every well-formed instruction is encoded in as many bytes as its format has, and those bytes, with
any bytes after them, decode to it. -/
def Obligations.DecodeInvertsEncode : Prop :=
  ∀ i : Instr, i.wellFormed = true →
    ∃ bs, encode i = some bs ∧ bs.length = instrLength i ∧ ∀ rest, decode (bs ++ rest) = .ok (i, rest)

/-- Whatever decodes is a well-formed instruction, and the bytes read are its encoding: each byte
sequence has one meaning and each meaning one byte sequence. -/
def Obligations.EncodeInvertsDecode : Prop :=
  ∀ (bs rest : List Byte) (i : Instr), decode bs = .ok (i, rest) →
    i.wellFormed = true ∧ ∃ pre, encode i = some pre ∧ bs = pre ++ rest

/-- Decoding fails on nothing but a list that ends before the instruction does: the opcode byte alone
gives the length, and every opcode byte has an entry (R51, R58). -/
def Obligations.DecodeFailsOnlyWhenTruncated : Prop :=
  (∀ (op : Byte) (rest : List Byte), opcodeLength op ≤ rest.length + 1 →
    ∃ i, decode (op :: rest) = .ok (i, rest.drop (opcodeLength op - 1))) ∧
  ∀ (op : Byte) (rest : List Byte), rest.length + 1 < opcodeLength op →
    decode (op :: rest) = .error (.truncated op)

/-- The unrecognized bytes are exactly the list of R56, whatever follows them. That list is the
complement of the opcode map, which is the spec's decisions D2, D3 and D4 (log entries 2, 3, 5). -/
def Obligations.UnrecognizedBytesAreTheListed : Prop :=
  ∀ (op : Byte) (rest : List Byte),
    decode (op :: rest) = .ok (.unrecognized op, rest) ↔ op ∈ unrecognizedOpcodes

/-- The four opcode bytes the source itself gives, and one word of each other family. The bytes but for
those four are the conventional assignment (the spec's decision D2; log entry 2). -/
def Obligations.WrittenOutWordsDecode : Prop :=
  decode [0xA9, 0x00] = .ok (.lda (.imm 0x00), []) ∧
  decode [0x20, 0x00, 0xF0] = .ok (.jsr 0xF000, []) ∧
  decode [0x60] = .ok (.rts, []) ∧
  decode [0xFF] = .ok (.unrecognized 0xFF, []) ∧
  decode [0x9D, 0x01, 0x00] = .ok (.sta (.absx 0x0001), []) ∧
  decode [0xF6, 0x10] = .ok (.inc (.zpx 0x10), []) ∧
  decode [0xD1, 0x20] = .ok (.cmp (.mem (.indy 0x20)), []) ∧
  decode [0x6A] = .ok (.ror .acc, []) ∧
  decode [0x6C, 0xFF, 0x12] = .ok (.jmpInd 0x12FF, []) ∧
  decode [0xD0, 0xF8] = .ok (.bne 0xF8, []) ∧
  decode [0xF8] = .ok (.sed, []) ∧
  decode [0x00] = .ok (.brk, [])

/-! ### The step -/

/-- A step runs the instruction that the bytes at PC decode to, and its `continue` is that instruction's;
the three bytes from PC wrap at 65536, which is the spec's decision D13 (log entry 14). PC is still PC0 when
the instruction begins. -/
def Obligations.StepRunsTheDecodedInstruction : Prop :=
  ∀ (s : State) (i : Instr) (rest : List Byte),
    decode [s.read s.pc, s.read (s.pc + 1), s.read (s.pc + 2)] = .ok (i, rest) →
    step s = exec i s ∧ stepContinue s = continueOf i

/-- Where the encoding of an instruction lies in memory at PC, at consecutive addresses that wrap at
65536, a step runs that instruction, and its `continue` is that instruction's. The wrap of the operand
fetch is the spec's decision D13 (log entry 14). -/
def Obligations.StepRunsTheEncodedInstruction : Prop :=
  ∀ (s : State) (i : Instr) (bs : List Byte), encode i = some bs →
    (∀ k b, bs[k]? = some b → s.read (s.pc + BitVec.ofNat 16 k) = b) →
    step s = exec i s ∧ stepContinue s = continueOf i

/-- Every step of every state yields a next state and a `continue` bit: no fault, no refusal (R2). -/
def Obligations.StepIsTotal : Prop :=
  ∀ s : State, ∃ t, step s = .next t ∧ stepResult s = .next { state := t, cont := stepContinue s }

/-- There is no halted latch: whatever instruction the host then places at PC, over consecutive addresses
that wrap, a core that has halted is still at that PC and runs it, as any core does (R228; that `step`
may be called again at all is the spec's decision D15, log entry 16; the wrap of the operand fetch, R52,
is its decision D13, log entry 14). -/
def Obligations.HaltedCoreRunsWhatTheHostPlaces : Prop :=
  ∀ (s t : State) (i : Instr) (bs : List Byte), step s = .next t → stepContinue s = false →
    encode i = some bs →
    t.pc = s.pc ∧ step (t.writeBytes t.pc bs) = exec i (t.writeBytes t.pc bs) ∧
    stepContinue (t.writeBytes t.pc bs) = continueOf i

/-- A step returns `continue = false` exactly when the byte at PC is 0x00 or one of the 111 unrecognized
ones (R185). The bytes are the spec's decisions D2 to D4 (log entries 2, 3, 5). -/
def Obligations.HaltsExactlyOnHaltingBytes : Prop :=
  ∀ s : State, ∃ r, stepResult s = .next r ∧ (r.cont = false ↔ haltingByte (s.read s.pc) = true)

/-- After a step that returned false, with the byte at PC not overwritten by the three pushes, the next
step halts on the same byte again and pushes three more bytes (R228; the spec's decision D15, log
entry 16). This is about one more step; its own pushes may overwrite the byte. -/
def Obligations.HaltRepeatsOnceWhereTheByteStands : Prop :=
  ∀ s t : State, step s = .next t → stepContinue s = false → t.read s.pc = s.read s.pc →
    t.pc = s.pc ∧ stepContinue t = false ∧
    ∃ u, step t = .next u ∧ u.pc = s.pc ∧ u.sp = t.sp - 3

/-- Every step from a state whose memory is in canonical form leaves a state whose memory is. The form
is the model's own (log entry 23). -/
def Obligations.StepKeepsInvariant : Prop :=
  ∀ s t : State, s.Inv → step s = .next t → t.Inv

/-- The reset state meets the invariant. -/
def Obligations.ResetMeetsInvariant : Prop := State.reset.Inv

/-- Every state that meets the invariant is safe: each state reached from it, by steps, by writes of the
host and by loads between them, meets the invariant and has a next state. -/
def Obligations.InvariantStatesAreSafe : Prop := ∀ s : State, s.Inv → Safe s

/-- The state after reset (R21). -/
def Obligations.ResetState : Prop :=
  State.reset.a = 0x00 ∧ State.reset.x = 0x00 ∧ State.reset.y = 0x00 ∧
  State.reset.sp = 0xFF ∧ State.reset.p = 0x00 ∧ State.reset.pc = 0x0000 ∧
  ∀ a, State.reset.read a = 0x00

/-- A fresh core that nothing has loaded takes the halt path on its first step (R221, vector FL11). The
byte 0x00 of BRK is the spec's decision D2 (log entry 2). -/
def Obligations.FreshCoreHaltsAtOnce : Prop :=
  ∃ t, stepResult State.reset = .next { state := t, cont := false } ∧ t.pc = 0x0000 ∧ t.sp = 0xFC ∧
    t.p = 0x04 ∧ t.read 0x01FE = 0x02 ∧
    ∀ a, a ≠ 0x01FE → t.read a = 0x00

/-! ### Memory -/

/-- After any sequence of writes a read returns the byte last written to that address, or what the
address held before if none of them was to it; and no write changes a register. After reset that is
0x00 (R36). -/
def Obligations.ReadReturnsTheLastWrite : Prop :=
  (∀ (c : State) (writes : List (Addr × Byte)) (a : Addr),
    (writes.foldl (fun c w => c.write w.1 w.2) c).read a = (writes.reverse.lookup a).getD (c.read a)) ∧
  (∀ (c : State) (a : Addr) (v : Byte), c.write a v = { c with mem := (c.write a v).mem }) ∧
  ∀ a, State.reset.read a = 0x00

/-- Two canonical memories that read the same everywhere are the same data (the model's own form; log
entry 23). -/
def Obligations.CanonicalMemoryIsUnique : Prop :=
  ∀ m m' : Memory, m.wf → m'.wf → (∀ a, m.read a = m'.read a) → m = m'

/-! ### Flag and ALU primitives -/

/-- `setNZ` writes Z and N from the byte, whatever they were, and no other bit; they are never both 1
(R90). -/
def Obligations.SetNZWritesZeroAndNegative : Prop :=
  ∀ v p : Byte, FlagsAre p (setNZ v p) (nz v) ∧
    ¬((setNZ v p).getLsbD 7 = true ∧ (setNZ v p).getLsbD 1 = true)

/-- Setting or clearing a flag changes exactly that bit of P (R91; that a clear is of one bit is the
spec's decision D1, log entry 6). -/
def Obligations.FlagWriteChangesOneBit : Prop :=
  ∀ p : Byte,
    FlagsAre p (setFlag .n p) [(7, true)] ∧ FlagsAre p (clearFlag .n p) [(7, false)] ∧
    FlagsAre p (setFlag .v p) [(6, true)] ∧ FlagsAre p (clearFlag .v p) [(6, false)] ∧
    FlagsAre p (setFlag .b5 p) [(5, true)] ∧ FlagsAre p (clearFlag .b5 p) [(5, false)] ∧
    FlagsAre p (setFlag .b4 p) [(4, true)] ∧ FlagsAre p (clearFlag .b4 p) [(4, false)] ∧
    FlagsAre p (setFlag .d p) [(3, true)] ∧ FlagsAre p (clearFlag .d p) [(3, false)] ∧
    FlagsAre p (setFlag .i p) [(2, true)] ∧ FlagsAre p (clearFlag .i p) [(2, false)] ∧
    FlagsAre p (setFlag .z p) [(1, true)] ∧ FlagsAre p (clearFlag .z p) [(1, false)] ∧
    FlagsAre p (setFlag .c p) [(0, true)] ∧ FlagsAre p (clearFlag .c p) [(0, false)]

/-- The source's loop of unit increments and the closed form of `Add` agree on every input (R95, vector
PR1). Both clear V first, the spec's decision D11 (log entry 12). -/
def Obligations.AddLoopIsClosedForm : Prop := ∀ a b p : Byte, addLoop a b p = add a b p

/-- The loop of unit decrements and the closed form of `Sub` agree on every input (R96, vector PR2). That
Carry counts as a borrow is the spec's decision D12 (log entry 13); that V is cleared first in both forms
is D11 (log entry 12). -/
def Obligations.SubLoopIsClosedForm : Prop := ∀ a b p : Byte, subLoop a b p = sub a b p

/-- The shifts: the result, C the bit shifted out, Z and N of the result, no other flag (R97, R98). -/
def Obligations.ShiftPrimitives : Prop :=
  ∀ v p : Byte,
    (shiftLeft v p).1.toNat = v.toNat * 2 % 256 ∧ FlagsAre p (shiftLeft v p).2 (leftFlags v) ∧
    (shiftRight v p).1.toNat = v.toNat / 2 ∧ FlagsAre p (shiftRight v p).2 (rightFlags v)

/-- Nine rotates left restore the byte and the Carry, and so do nine rotates right (R145, vector PR5).
The flags of a rotate are the spec's decision D21 (log entry 20); this is about C alone. -/
def Obligations.NineRotatesRestore : Prop :=
  ∀ v p : Byte,
    (rotations rotateLeft 9 (v, p)).1 = v ∧
    (rotations rotateLeft 9 (v, p)).2.getLsbD 0 = p.getLsbD 0 ∧
    (rotations rotateRight 9 (v, p)).1 = v ∧
    (rotations rotateRight 9 (v, p)).2.getLsbD 0 = p.getLsbD 0

/-- Increment and decrement wrap at eight bits and write Z and N of the result and no other flag;
increment then decrement restores the byte and leaves Z and N of the restored value (R101, R102). -/
def Obligations.IncrementDecrementPrimitives : Prop :=
  ∀ v p : Byte,
    (increment v p).1.toNat = (v.toNat + 1) % 256 ∧
    FlagsAre p (increment v p).2 (nz (increment v p).1) ∧
    (decrement v p).1.toNat = (v.toNat + 255) % 256 ∧
    FlagsAre p (decrement v p).2 (nz (decrement v p).1) ∧
    (decrement (increment v p).1 (increment v p).2).1 = v ∧
    FlagsAre p (decrement (increment v p).1 (increment v p).2).2 (nz v)

/-- Push stores at 0x0100 + SP and then lowers SP; pop raises SP and then reads at 0x0100 + SP; both wrap
inside the byte, touch no flag and no other state; pop after push gives the byte back and SP as it was
(R103, R104). -/
def Obligations.PushAndPop : Prop :=
  ∀ (c : State) (b : Byte),
    (stackAddr c.sp).toNat = 0x0100 + c.sp.toNat ∧
    StoresOnly c (push b c) (stackAddr c.sp) b ∧
    push b c = { c with sp := c.sp - 1, mem := (push b c).mem } ∧
    (pop c).1 = c.read (stackAddr (c.sp + 1)) ∧
    (pop c).2 = { c with sp := c.sp + 1 } ∧
    (pop (push b c)).1 = b ∧ (pop (push b c)).2.sp = c.sp

/-- A pushed word lies high byte first, low byte one below, SP two lower; a popped word takes the low
byte first, SP two higher; popping gives the pushed word back (R105, R106). -/
def Obligations.PushWordAndPopWord : Prop :=
  ∀ (c : State) (w : Addr),
    PushesWord c (pushWord w c) w.toNat ∧
    pushWord w c = { c with sp := c.sp - 2, mem := (pushWord w c).mem } ∧
    (popWord c).1.toNat =
      (c.read (stackAddr (c.sp + 2))).toNat * 256 + (c.read (stackAddr (c.sp + 1))).toNat ∧
    (popWord c).2 = { c with sp := c.sp + 2 } ∧
    (popWord (pushWord w c)).1 = w ∧ (popWord (pushWord w c)).2.sp = c.sp

/-! ### Addressing modes -/

/-- The zero-page modes: the effective address wraps inside page zero, PC goes two on, and resolving
changes nothing else (R72, R73; zero-page,Y likewise). -/
def Obligations.ZeroPageModes : Prop :=
  ∀ (c : State) (l : Byte),
    (resolve (.zp l) c).1.toNat = l.toNat ∧
    (resolve (.zpx l) c).1.toNat = (l.toNat + c.x.toNat) % 256 ∧
    (resolve (.zpy l) c).1.toNat = (l.toNat + c.y.toNat) % 256 ∧
    (resolve (.zp l) c).2 = { c with pc := c.pc + 2 } ∧
    (resolve (.zpx l) c).2 = { c with pc := c.pc + 2 } ∧
    (resolve (.zpy l) c).2 = { c with pc := c.pc + 2 }

/-- The absolute modes: the operand word, plus the index modulo 65536; PC goes three on; resolving
changes nothing else (R76, R77; absolute likewise). -/
def Obligations.AbsoluteModes : Prop :=
  ∀ (c : State) (h l : Byte),
    (resolve (.abs (word h l)) c).1.toNat = h.toNat * 256 + l.toNat ∧
    (resolve (.absx (word h l)) c).1.toNat = (h.toNat * 256 + l.toNat + c.x.toNat) % 65536 ∧
    (resolve (.absy (word h l)) c).1.toNat = (h.toNat * 256 + l.toNat + c.y.toNat) % 65536 ∧
    (resolve (.abs (word h l)) c).2 = { c with pc := c.pc + 3 } ∧
    (resolve (.absx (word h l)) c).2 = { c with pc := c.pc + 3 } ∧
    (resolve (.absy (word h l)) c).2 = { c with pc := c.pc + 3 }

/-- The indirect modes: the pointer's low byte at the zero-page address, its high byte at the next
address, which for 0xFF is 0x0100; (indirect,X) adds X to the pointer's address inside the page and
(indirect),Y adds Y to the pointer modulo 65536 (R78, R79). Where the high byte lies is the spec's
decisions D8 and D9 (log entries 9, 10). -/
def Obligations.IndirectModes : Prop :=
  ∀ (c : State) (l : Byte),
    (resolve (.indx l) c).1.toNat =
      (c.read (BitVec.ofNat 16 ((l.toNat + c.x.toNat) % 256 + 1))).toNat * 256 +
        (c.read (BitVec.ofNat 16 ((l.toNat + c.x.toNat) % 256))).toNat ∧
    (resolve (.indy l) c).1.toNat =
      ((c.read (BitVec.ofNat 16 (l.toNat + 1))).toNat * 256 +
        (c.read (BitVec.ofNat 16 l.toNat)).toNat + c.y.toNat) % 65536 ∧
    (resolve (.indx l) c).2 = { c with pc := c.pc + 2 } ∧
    (resolve (.indy l) c).2 = { c with pc := c.pc + 2 }

/-! ### What each instruction does

Each of these completes with a next state from every state, and says all that changes. Which register,
flag or condition a mnemonic names is the spec's decision D5 (log entry 4). -/

/-- LDA, LDX, LDY: the operand into the register, Z and N of it (R110 to R112). -/
def Obligations.LoadsSetTheirRegister : Prop :=
  ∀ (o : Src) (s : State),
    SetsA (.lda o) s (operandByte s o) (nz (operandByte s o)) ∧
    SetsX (.ldx o) s (operandByte s o) (nz (operandByte s o)) ∧
    SetsY (.ldy o) s (operandByte s o) (nz (operandByte s o))

/-- STA, STX, STY: the register to the effective address, no flag (R113 to R115). -/
def Obligations.StoresWriteOneByte : Prop :=
  ∀ (m : MemMode) (s : State),
    SetsCell (.sta m) m s s.a [] ∧ SetsCell (.stx m) m s s.x [] ∧ SetsCell (.sty m) m s s.y []

/-- TAX, TXA, TAY, TYA, TSX copy one register into another with Z and N of it; TXS copies X into SP and
writes no flag (R116 to R121). -/
def Obligations.TransfersCopyARegister : Prop :=
  ∀ s : State,
    SetsX .tax s s.a (nz s.a) ∧ SetsA .txa s s.x (nz s.x) ∧
    SetsY .tay s s.a (nz s.a) ∧ SetsA .tya s s.y (nz s.y) ∧
    SetsX .tsx s s.sp (nz s.sp) ∧
    exec .txs s = .next { s with sp := s.x, pc := s.pc + 1 } ∧ continueOf .txs = true

/-- INC, DEC: the byte at the effective address plus or minus 1, Z and N of the new value (R125, R126). -/
def Obligations.IncDecChangeOneByte : Prop :=
  ∀ (m : MemMode) (s : State),
    SetsCell (.inc m) m s (s.read (effectiveAddress s m) + 1)
      (nz (s.read (effectiveAddress s m) + 1)) ∧
    SetsCell (.dec m) m s (s.read (effectiveAddress s m) - 1)
      (nz (s.read (effectiveAddress s m) - 1))

/-- INX, INY, DEX, DEY: the register plus or minus 1, Z and N of the new value (R127 to R130). -/
def Obligations.IncDecChangeOneRegister : Prop :=
  ∀ s : State,
    SetsX .inx s (s.x + 1) (nz (s.x + 1)) ∧ SetsY .iny s (s.y + 1) (nz (s.y + 1)) ∧
    SetsX .dex s (s.x - 1) (nz (s.x - 1)) ∧ SetsY .dey s (s.y - 1) (nz (s.y - 1))

/-- CMP, CPX, CPY: P and PC alone; N is the AND of the sign bits and 0 on equality, C is unsigned
greater-or-equal (R94, R131 to R133). The roles and the N formula are the spec's decision D10 (log
entry 11). -/
def Obligations.ComparesSetFlagsOnly : Prop :=
  ∀ (o : Src) (s : State),
    SetsFlags (.cmp o) s (compareFlags s.a (operandByte s o)) ∧
    SetsFlags (.cpx o) s (compareFlags s.x (operandByte s o)) ∧
    SetsFlags (.cpy o) s (compareFlags s.y (operandByte s o))

/-- AND changes A and no flag; ORA and EOR change A and set Z and N of it (R140 to R142). -/
def Obligations.LogicCombinesWithA : Prop :=
  ∀ (o : Src) (s : State),
    SetsA (.and o) s (s.a &&& operandByte s o) [] ∧
    SetsA (.ora o) s (s.a ||| operandByte s o) (nz (s.a ||| operandByte s o)) ∧
    SetsA (.eor o) s (s.a ^^^ operandByte s o) (nz (s.a ^^^ operandByte s o))

/-- ASL, LSR, ROL, ROR on the accumulator. A rotate's Z and N are those of the shifted value before the
old Carry goes in (R99, R100, R143 to R146; the spec's decision D21, log entry 20). -/
def Obligations.ShiftsAndRotatesOfA : Prop :=
  ∀ s : State,
    SetsA (.asl .acc) s (BitVec.ofNat 8 (s.a.toNat * 2)) (leftFlags s.a) ∧
    SetsA (.lsr .acc) s (BitVec.ofNat 8 (s.a.toNat / 2)) (rightFlags s.a) ∧
    SetsA (.rol .acc) s (BitVec.ofNat 8 (s.a.toNat * 2 + carryOf s.p)) (leftFlags s.a) ∧
    SetsA (.ror .acc) s (BitVec.ofNat 8 (s.a.toNat / 2 + 128 * carryOf s.p))
      (rightFlags s.a)

/-- ASL, LSR, ROL, ROR on a memory byte: one byte changes, to the same results with the same flags as on
the accumulator (R99, R100, R107, R143 to R146; the spec's decision D21, log entry 20). -/
def Obligations.ShiftsAndRotatesOfMemory : Prop :=
  ∀ (m : MemMode) (s : State),
    let v := s.read (effectiveAddress s m)
    SetsCell (.asl (.mem m)) m s (BitVec.ofNat 8 (v.toNat * 2)) (leftFlags v) ∧
    SetsCell (.lsr (.mem m)) m s (BitVec.ofNat 8 (v.toNat / 2)) (rightFlags v) ∧
    SetsCell (.rol (.mem m)) m s (BitVec.ofNat 8 (v.toNat * 2 + carryOf s.p)) (leftFlags v) ∧
    SetsCell (.ror (.mem m)) m s (BitVec.ofNat 8 (v.toNat / 2 + 128 * carryOf s.p)) (rightFlags v)

/-- ADC: A plus the operand plus Carry modulo 256; C and V both 1 exactly when the sum passes 255; Z and
N of the result; D is not consulted (R95, R147). That V is cleared first is the spec's decision D11 (log
entry 12). -/
def Obligations.AdcAddsWithCarry : Prop :=
  ∀ (o : Src) (s : State),
    let sum := s.a.toNat + (operandByte s o).toNat + carryOf s.p
    SetsA (.adc o) s (BitVec.ofNat 8 sum)
      ((6, decide (255 < sum)) :: (0, decide (255 < sum)) :: nz (BitVec.ofNat 8 sum))

/-- SBC: A minus the operand minus Carry modulo 256; C and V both 1 exactly when the difference is below
zero; Z and N of the result (R96, R148). The borrow sense of Carry is the spec's decision D12 (log
entry 13); that V is cleared first is D11 (log entry 12). -/
def Obligations.SbcSubtractsWithBorrow : Prop :=
  ∀ (o : Src) (s : State),
    let diff : Int := s.a.toNat - (operandByte s o).toNat - carryOf s.p
    SetsA (.sbc o) s (BitVec.ofInt 8 diff)
      ((6, decide (diff < 0)) :: (0, decide (diff < 0)) :: nz (BitVec.ofInt 8 diff))

/-- JSR and both forms of JMP push PC0 + 2 and go to the target; the target of JMP indirect is the word
at the pointer, read before the pushes (R155 to R157, R39). What JMP pushes is the spec's decision D6
(log entry 7), where the pointer's high byte lies D7 (log entry 8), the order of reads D14 (log
entry 15). -/
def Obligations.JumpsPushAndGo : Prop :=
  (∀ (target : Addr) (s : State), ∃ t,
    exec (.jsr target) s = .next t ∧ exec (.jmpAbs target) s = .next t ∧
    continueOf (.jsr target) = true ∧ continueOf (.jmpAbs target) = true ∧
    PushesWord s t ((s.pc.toNat + 2) % 65536) ∧
    t = { s with pc := target, sp := s.sp - 2, mem := t.mem }) ∧
  ∀ (pointer : Addr) (s : State), ∃ t,
    exec (.jmpInd pointer) s = .next t ∧ continueOf (.jmpInd pointer) = true ∧
    PushesWord s t ((s.pc.toNat + 2) % 65536) ∧
    t.pc.toNat =
      (s.read (BitVec.ofNat 16 (pointer.toNat + 1))).toNat * 256 + (s.read pointer).toNat ∧
    t = { s with pc := t.pc, sp := s.sp - 2, mem := t.mem }

/-- RTS pops a word, low byte first, and goes to it plus 1; RTI pops P, all eight bits, then a word, and
goes to it plus 1; neither changes memory (R158, R159). -/
def Obligations.ReturnsPopAndAddOne : Prop :=
  ∀ s : State,
    (∃ pc : Addr,
      pc.toNat = ((s.read (stackAddr (s.sp + 2))).toNat * 256 +
                    (s.read (stackAddr (s.sp + 1))).toNat + 1) % 65536 ∧
      exec .rts s = .next { s with pc := pc, sp := s.sp + 2 } ∧ continueOf .rts = true) ∧
    ∃ pc : Addr,
      pc.toNat = ((s.read (stackAddr (s.sp + 3))).toNat * 256 +
                    (s.read (stackAddr (s.sp + 2))).toNat + 1) % 65536 ∧
      exec .rti s = .next { s with pc := pc, sp := s.sp + 3, p := s.read (stackAddr (s.sp + 1)) } ∧
      continueOf .rti = true

/-- The eight branches: PC0 + 2, and the signed displacement when the condition holds (R160 to R168). -/
def Obligations.BranchesTestOneFlag : Prop :=
  ∀ (d : Byte) (s : State),
    Branches (.bcc d) d s (!s.p.getLsbD 0) ∧ Branches (.bcs d) d s (s.p.getLsbD 0) ∧
    Branches (.beq d) d s (s.p.getLsbD 1) ∧ Branches (.bne d) d s (!s.p.getLsbD 1) ∧
    Branches (.bmi d) d s (s.p.getLsbD 7) ∧ Branches (.bpl d) d s (!s.p.getLsbD 7) ∧
    Branches (.bvc d) d s (!s.p.getLsbD 6) ∧ Branches (.bvs d) d s (s.p.getLsbD 6)

/-- SEC, CLC, SED, CLD, SEI, CLI, CLV write one bit of P, and NOP none; PC goes one on and nothing else
changes (R175 to R182). -/
def Obligations.FlagInstructionsWriteOneBit : Prop :=
  ∀ s : State,
    SetsFlags .sec s [(0, true)] ∧ SetsFlags .clc s [(0, false)] ∧
    SetsFlags .sed s [(3, true)] ∧ SetsFlags .cld s [(3, false)] ∧
    SetsFlags .sei s [(2, true)] ∧ SetsFlags .cli s [(2, false)] ∧
    SetsFlags .clv s [(6, false)] ∧
    exec .nop s = .next { s with pc := s.pc + 1 } ∧ continueOf .nop = true

/-- BRK and every unrecognized opcode take the halt path: the word PC0 + 2 and then P as it stood are
pushed, I is set, PC stays PC0, `continue` is false, and nothing else changes (R183, R184, R202). That
bits 5 and 4 of the pushed P are not forced is the spec's decision D22 (log entry 21). -/
def Obligations.HaltPathPushesAndStays : Prop :=
  ∀ (op : Byte) (s : State), ∃ t,
    exec .brk s = .next t ∧ exec (.unrecognized op) s = .next t ∧
    continueOf .brk = false ∧ continueOf (.unrecognized op) = false ∧
    FlagsAre s.p t.p [(2, true)] ∧
    (t.read (stackAddr s.sp)).toNat = (s.pc.toNat + 2) % 65536 / 256 ∧
    (t.read (stackAddr (s.sp - 1))).toNat = (s.pc.toNat + 2) % 256 ∧
    t.read (stackAddr (s.sp - 2)) = s.p ∧
    (∀ b, b ∉ addressesWritten s .brk → t.read b = s.read b) ∧
    t = { s with sp := s.sp - 3, p := t.p, mem := t.mem }

/-! ### Rules about the whole machine -/

/-- No instruction changes a bit of P that the matrix of R16 leaves blank for it. In particular bits 5
and 4 change by RTI alone. -/
def Obligations.FlagsChangeOnlyWhereListed : Prop :=
  ∀ (i : Instr) (s : State), ∃ t, exec i s = .next t ∧
    ∀ k, k < 8 → k ∉ flagsWritten i → t.p.getLsbD k = s.p.getLsbD k

/-- No instruction changes A, X, Y or SP but those the register access summary names for it. -/
def Obligations.RegistersChangeOnlyWhereListed : Prop :=
  ∀ (i : Instr) (s : State), ∃ t, exec i s = .next t ∧
    ∀ r, r ∉ registersWritten i → t.reg r = s.reg r

/-- No instruction changes a byte of memory but those it stores to: the effective address of a store or
a read-modify-write, two stack bytes of a jump or call, three of the halt path, none otherwise. -/
def Obligations.MemoryChangesOnlyWhereListed : Prop :=
  ∀ (i : Instr) (s : State), ∃ t, exec i s = .next t ∧
    ∀ b, b ∉ addressesWritten s i → t.read b = s.read b

/-- Every instruction that does not transfer control leaves PC at PC0 plus its length (R5). -/
def Obligations.OtherInstructionsGoOn : Prop :=
  ∀ (i : Instr) (s : State), transfersControl i = false →
    ∃ t, exec i s = .next t ∧ t.pc = s.pc + BitVec.ofNat 16 (instrLength i)

/-- D and I have no effect: two states that differ at most in bits 3 and 2 of P are taken by every
instruction to states that differ at most in bits 3 and 2 of P (R16, R18; the spec's decision D19, log
entry 19), but for the one byte of memory in which the halt path saves P (R183). -/
def Obligations.DecimalAndInterruptFlagsAreInert : Prop :=
  ∀ (i : Instr) (s : State) (p' : Byte),
    (∀ k, k < 8 → k ≠ 3 → k ≠ 2 → p'.getLsbD k = s.p.getLsbD k) →
    ∃ t t', exec i s = .next t ∧ exec i { s with p := p' } = .next t' ∧
      t' = { t with p := t'.p, mem := t'.mem } ∧
      (∀ k, k < 8 → k ≠ 3 → k ≠ 2 → t'.p.getLsbD k = t.p.getLsbD k) ∧
      ∀ b, (continueOf i = false → b ≠ stackAddr (s.sp - 2)) → t'.read b = t.read b

/-- JSR, then RTS in any state whose SP is as the JSR left it and whose two pushed bytes still stand,
whatever else was done between, comes back to the instruction after the JSR with SP as it was before it
(the source's scenario S7, conflict C2; log entry 22). -/
def Obligations.CallThenReturnComesBack : Prop :=
  ∀ (target : Addr) (s t v : State), exec (.jsr target) s = .next t →
    v.sp = t.sp →
    v.read (stackAddr s.sp) = t.read (stackAddr s.sp) →
    v.read (stackAddr (s.sp - 1)) = t.read (stackAddr (s.sp - 1)) →
    exec .rts v = .next { v with pc := s.pc + 3, sp := s.sp }

/-- After the halt path, of BRK or of an unrecognized byte, an RTI in any state whose SP is as the halt
path left it and whose three pushed bytes still stand, whatever the host or a load did between, restores
P as it was before the halt, and SP, and goes on at PC0 + 3 (R206; pushing and restoring all eight bits
is the spec's decision D22, log entry 21). -/
def Obligations.ReturnAfterHaltRestoresFlags : Prop :=
  ∀ (i : Instr) (s t v : State), continueOf i = false → exec i s = .next t →
    v.sp = t.sp →
    v.read (stackAddr s.sp) = t.read (stackAddr s.sp) →
    v.read (stackAddr (s.sp - 1)) = t.read (stackAddr (s.sp - 1)) →
    v.read (stackAddr (s.sp - 2)) = t.read (stackAddr (s.sp - 2)) →
    exec .rti v = .next { v with pc := s.pc + 3, sp := s.sp, p := s.p }

/-- INC then DEC of the same cell restores the byte, with Z and N of it and every byte of memory as it
was, for every mode INC and DEC have (R102, the source's property S2). -/
def Obligations.IncThenDecRestoresMemory : Prop :=
  ∀ (m : MemMode) (s t : State), (Instr.inc m).wellFormed = true → exec (.inc m) s = .next t →
    ∃ u, exec (.dec m) t = .next u ∧ (∀ b, u.read b = s.read b) ∧
      FlagsAre s.p u.p (nz (s.read (effectiveAddress s m)))

/-! ### Around the core -/

/-- The loader copies the image to consecutive addresses from its load address, wrapping at 65536, a
later byte over an earlier one; no other byte of memory and no register but PC changes; PC becomes the
load address; and a file is the load address, low byte first, and the bytes (R223; that PC becomes the
load address is the spec's decision D17, log entry 17). -/
def Obligations.LoaderCopiesTheImage : Prop :=
  (∀ (image : Image) (c : State),
    (∀ k b, image.bytes[k]? = some b →
      (∀ j, k < j → j < image.bytes.length →
        image.base + BitVec.ofNat 16 j ≠ image.base + BitVec.ofNat 16 k) →
      (loadImage image c).read (image.base + BitVec.ofNat 16 k) = b) ∧
    (∀ a, (∀ k, k < image.bytes.length → a ≠ image.base + BitVec.ofNat 16 k) →
      (loadImage image c).read a = c.read a) ∧
    loadImage image c = { c with pc := image.base, mem := (loadImage image c).mem }) ∧
  ∀ (lo hi : Byte) (bytes : List Byte) (c : State),
    loadFile (some (lo :: hi :: bytes)) c =
      { ok := true, state := loadImage { base := BitVec.ofNat 16 (hi.toNat * 256 + lo.toNat), bytes := bytes } c }

/-- A load that fails is reported and leaves the Processor State unchanged, and the core can be stepped
(R224). -/
def Obligations.FailedLoadChangesNothing : Prop :=
  ∀ c : State, (loadFile none c).ok = false ∧ (loadFile none c).state = c ∧
    ∃ t, step (loadFile none c).state = .next t

/-- Between steps the host may write memory, which changes that byte and no register; the snapshot
returns the six registers as they stand (R22, R226; the spec's decision D18, log entry 18). -/
def Obligations.HostWritesMemoryOnly : Prop :=
  ∀ (s : State) (a : Addr) (v : Byte),
    StoresOnly s (hostWrite s a v) a v ∧
    readRegisters (hostWrite s a v) = readRegisters s ∧
    readRegisters s =
      { a := s.a, x := s.x, y := s.y, sp := s.sp, pc := s.pc, flags := s.p }

/-- A run is steps, each after the host's writes of its boundary, up to the first that returns false
(R227). With no step to make the host has ceased, in the state it was given; a step that returns false
makes the state it left the final one; a step that returns true makes the run go on from the state it
left with the boundaries that remain. So a final state was left by a step that returned false and stays
final however many more steps the host was ready to make; a state still running is the given one or was
left by a step that returned true; and no run ends in any other way. What the host may write is the spec's
decision D18 (log entry 18). -/
def Obligations.RunEndsAtTheFirstFalse : Prop :=
  (∀ (w : List (List (Addr × Byte))) (s : State), run 0 w s = .running s) ∧
  (∀ (k : Nat) (w : List (List (Addr × Byte))) (s t : State),
    step (hostWrites (w.headD []) s) = .next t →
    stepContinue (hostWrites (w.headD []) s) = false → run (k + 1) w s = .final t) ∧
  (∀ (k : Nat) (w : List (List (Addr × Byte))) (s t : State),
    step (hostWrites (w.headD []) s) = .next t →
    stepContinue (hostWrites (w.headD []) s) = true → run (k + 1) w s = run k w.tail t) ∧
  (∀ (k : Nat) (w : List (List (Addr × Byte))) (s t : State), run k w s = .final t →
    (∃ u, step u = .next t ∧ stepContinue u = false) ∧ ∀ m, run (k + m) w s = .final t) ∧
  (∀ (k : Nat) (w : List (List (Addr × Byte))) (s t : State), run (k + 1) w s = .running t →
    ∃ u, step u = .next t ∧ stepContinue u = true) ∧
  ∀ (k : Nat) (w : List (List (Addr × Byte))) (s : State) (r : Refusal), run k w s ≠ .refused r

/-- Stepping one instance steps it and touches no other (R23). -/
def Obligations.InstancesShareNothing : Prop :=
  ∀ (k : Nat) (instances : List State),
    (∀ j, j ≠ k → (stepInstance k instances)[j]? = instances[j]?) ∧
    ∀ s t, instances[k]? = some s → step s = .next t → (stepInstance k instances)[k]? = some t

/-- What the host and the loader do to memory keeps its canonical form as well as a step does: a host
write, the writes of a boundary, a load that succeeds or fails, the launch state, a table word placed at
PC, and wherever a run from a canonical state has come to. The form is the model's own (log entry 23). -/
def Obligations.HostAndLoaderKeepInvariant : Prop :=
  (∀ (s : State) (a : Addr) (v : Byte), s.Inv → (hostWrite s a v).Inv) ∧
  (∀ (s : State) (w : List (Addr × Byte)), s.Inv → (hostWrites w s).Inv) ∧
  (∀ (s : State) (file : Option (List Byte)), s.Inv → (loadFile file s).state.Inv) ∧
  (∀ (image : Option Image) (w : List (Addr × Byte)), (launch image w).Inv) ∧
  (∀ (s : State) (nbits w : Nat), s.Inv → (s.withFetchWord nbits w).Inv) ∧
  ∀ (k : Nat) (w : List (List (Addr × Byte))) (s t : State), s.Inv →
    run k w s = .running t ∨ run k w s = .final t → t.Inv
end

