-- ==== Sys2Proof/Laws/Decode.lean ====
section
/-! SUPPORT. The decoder by the format of the opcode's entry, and the number of bytes the encoder
writes. -/

namespace Sys2Proof

/-! ### The decoder, one lemma for each format (R50) -/

theorem decode_one {op : Byte} {i : Instr} (h : opcodeEntry op = .one i) (rest : List Byte) :
    decode (op :: rest) = .ok (i, rest) := by
  simp [decode, h]

theorem decode_byte {op : Byte} {make : Byte → Instr} (h : opcodeEntry op = .byte make) (l : Byte)
    (rest : List Byte) : decode (op :: l :: rest) = .ok (make l, rest) := by
  simp [decode, h]

theorem decode_word {op : Byte} {make : Addr → Instr} (h : opcodeEntry op = .word make) (l hi : Byte)
    (rest : List Byte) : decode (op :: l :: hi :: rest) = .ok (make (word hi l), rest) := by
  simp [decode, h]

/-! ### The fetch, one lemma for each format -/

namespace Machine

theorem fetch_one {c : State} {i : Instr} (h : opcodeEntry (c.read c.pc) = .one i) : fetch c = i := by
  simp [fetch, h]

theorem fetch_byte {c : State} {make : Byte → Instr} (h : opcodeEntry (c.read c.pc) = .byte make) :
    fetch c = make (c.read (c.pc + 1)) := by
  simp [fetch, h]

theorem fetch_word {c : State} {make : Addr → Instr} (h : opcodeEntry (c.read c.pc) = .word make) :
    fetch c = make (word (c.read (c.pc + 2)) (c.read (c.pc + 1))) := by
  simp [fetch, h]

end Machine

/-! ### The encoder's lengths -/

theorem operandBytes_length (m : MemMode) : m.operandBytes.length + 1 = Machine.memLength m := by
  cases m <;> rfl

theorem encodeMem_length {row : List (ModeTag × Byte)} {m : MemMode} {bs : List Byte}
    (h : encodeMem row m = some bs) : bs.length = Machine.memLength m := by
  obtain ⟨op, -, rfl⟩ := Option.map_eq_some_iff.1 h
  simpa using operandBytes_length m

end Sys2Proof
end

