-- ==== Sys2Proof/Laws/Flags.lean ====
section
/-! SUPPORT. What each flag computation does, bit by bit. -/

namespace Sys2Proof.Machine

/-- The place of a flag in P (R15). -/
def Flag.bit : Flag → Nat
  | .n => 7
  | .v => 6
  | .b5 => 5
  | .b4 => 4
  | .d => 3
  | .i => 2
  | .z => 1
  | .c => 0

theorem Flag.mask_getLsbD (f : Flag) (k : Nat) (hk : k < 8) :
    f.mask.getLsbD k = decide (k = f.bit) := by
  revert k
  cases f <;> decide

/-- A flag reads as its bit of P. -/
theorem getFlag_eq (f : Flag) (p : Byte) : getFlag f p = p.getLsbD f.bit := by
  cases f <;> revert p <;> decide

theorem setFlag_getLsbD (f : Flag) (p : Byte) (k : Nat) (hk : k < 8) :
    (setFlag f p).getLsbD k = if k = f.bit then true else p.getLsbD k := by
  simp only [setFlag, BitVec.getLsbD_or, Flag.mask_getLsbD f k hk]
  by_cases h : k = f.bit <;> simp [h]

theorem clearFlag_getLsbD (f : Flag) (p : Byte) (k : Nat) (hk : k < 8) :
    (clearFlag f p).getLsbD k = if k = f.bit then false else p.getLsbD k := by
  simp only [clearFlag, BitVec.getLsbD_and, BitVec.getLsbD_not, Flag.mask_getLsbD f k hk]
  by_cases h : k = f.bit <;> simp [h, hk]

/-- Writing a flag changes its own bit and no other (R91). -/
theorem putFlag_getLsbD (f : Flag) (b : Bool) (p : Byte) (k : Nat) (hk : k < 8) :
    (putFlag f b p).getLsbD k = if k = f.bit then b else p.getLsbD k := by
  cases b
  · simp [putFlag, clearFlag_getLsbD f p k hk]
  · simp [putFlag, setFlag_getLsbD f p k hk]

@[simp] theorem getFlag_setFlag (f : Flag) (p : Byte) : getFlag f (setFlag f p) = true := by
  cases f <;> revert p <;> decide

@[simp] theorem getFlag_clearFlag (f : Flag) (p : Byte) : getFlag f (clearFlag f p) = false := by
  cases f <;> revert p <;> decide

@[simp] theorem putFlag_true (f : Flag) (p : Byte) : putFlag f true p = setFlag f p := rfl

@[simp] theorem putFlag_false (f : Flag) (p : Byte) : putFlag f false p = clearFlag f p := rfl

/-- Bit 7 is the sign bit. -/
theorem msb_eq (v : Byte) : v.msb = v.getLsbD 7 := BitVec.msb_eq_getLsbD_last v

/-- `setNZ` bit by bit (R90). -/
theorem setNZ_getLsbD (v p : Byte) (k : Nat) (hk : k < 8) :
    (setNZ v p).getLsbD k =
      if k = 7 then v.getLsbD 7 else if k = 1 then decide (v = 0) else p.getLsbD k := by
  simp only [setNZ, putFlag_getLsbD _ _ _ k hk, Flag.bit, msb_eq]
  rfl

theorem carryIn_eq (p : Byte) : carryIn p = (p.getLsbD 0).toNat := by
  simp [carryIn, getFlag_eq, Flag.bit]

/-- The flags of `Add`, bit by bit (R95). -/
theorem add_snd_getLsbD (a b p : Byte) (k : Nat) (hk : k < 8) :
    (add a b p).2.getLsbD k =
      if k = 7 then (add a b p).1.getLsbD 7 else if k = 1 then decide ((add a b p).1 = 0)
      else if k = 0 ∨ k = 6 then decide (255 < a.toNat + b.toNat + carryIn p) else p.getLsbD k := by
  simp only [add, setNZ_getLsbD _ _ k hk, putFlag_getLsbD _ _ _ k hk, Flag.bit]
  split_ifs <;> first | rfl | simp_all

/-- The flags of `Sub`, bit by bit (R96). -/
theorem sub_snd_getLsbD (a b p : Byte) (k : Nat) (hk : k < 8) :
    (sub a b p).2.getLsbD k =
      if k = 7 then (sub a b p).1.getLsbD 7 else if k = 1 then decide ((sub a b p).1 = 0)
      else if k = 0 ∨ k = 6 then decide (a.toNat < b.toNat + carryIn p) else p.getLsbD k := by
  have hb : ((a.toNat : Int) - b.toNat - carryIn p < 0) ↔ a.toNat < b.toNat + carryIn p := by omega
  simp only [sub, setNZ_getLsbD _ _ k hk, putFlag_getLsbD _ _ _ k hk, Flag.bit, hb]
  split_ifs <;> simp_all

/-- The flags of a compare, bit by bit (R94). -/
theorem compare_getLsbD (a b p : Byte) (k : Nat) (hk : k < 8) :
    (compare a b p).getLsbD k =
      if k = 7 then decide (a ≠ b) && a.getLsbD 7 && b.getLsbD 7 else if k = 1 then decide (a = b)
      else if k = 0 then decide (b ≤ a) else p.getLsbD k := by
  unfold compare
  by_cases h : a = b
  · subst h
    simp only [if_true, putFlag_getLsbD _ _ _ k hk, setFlag_getLsbD _ _ k hk, clearFlag_getLsbD _ _ k hk,
      Flag.bit]
    split_ifs <;> simp_all
  · simp only [h, if_false, putFlag_getLsbD _ _ _ k hk, clearFlag_getLsbD _ _ k hk, Flag.bit, msb_eq]
    split_ifs <;> simp_all

/-- The flags of `ShiftLeft`, bit by bit (R97). -/
theorem shiftLeft_snd_getLsbD (v p : Byte) (k : Nat) (hk : k < 8) :
    (shiftLeft v p).2.getLsbD k =
      if k = 7 then (v <<< 1).getLsbD 7 else if k = 1 then decide (v <<< 1 = 0)
      else if k = 0 then v.getLsbD 7 else p.getLsbD k := by
  simp only [shiftLeft, setNZ_getLsbD _ _ k hk, putFlag_getLsbD _ _ _ k hk, Flag.bit, msb_eq]
  rfl

/-- The flags of `ShiftRight`, bit by bit (R98). -/
theorem shiftRight_snd_getLsbD (v p : Byte) (k : Nat) (hk : k < 8) :
    (shiftRight v p).2.getLsbD k =
      if k = 7 then (v >>> 1).getLsbD 7 else if k = 1 then decide (v >>> 1 = 0)
      else if k = 0 then v.getLsbD 0 else p.getLsbD k := by
  simp only [shiftRight, setNZ_getLsbD _ _ k hk, putFlag_getLsbD _ _ _ k hk, Flag.bit]
  rfl

end Sys2Proof.Machine
end

