-- ==== Sys2Proof/Laws/State.lean ====
section
/-! SUPPORT. One lemma for each field and each update of the Processor State, so that no proof unfolds a
record update. -/

namespace Sys2Proof.Machine
variable (c : State) (r : Reg) (v b : Byte) (a w : Addr) (n : Nat)

/-! ### Register reads and writes -/

@[simp] theorem State.reg_a : c.reg .a = c.a := rfl
@[simp] theorem State.reg_x : c.reg .x = c.x := rfl
@[simp] theorem State.reg_y : c.reg .y = c.y := rfl
@[simp] theorem State.reg_sp : c.reg .sp = c.sp := rfl

@[simp] theorem State.setReg_a : c.setReg .a v = { c with a := v } := rfl
@[simp] theorem State.setReg_x : c.setReg .x v = { c with x := v } := rfl
@[simp] theorem State.setReg_y : c.setReg .y v = { c with y := v } := rfl
@[simp] theorem State.setReg_sp : c.setReg .sp v = { c with sp := v } := rfl

@[simp] theorem State.setReg_pc : (c.setReg r v).pc = c.pc := by cases r <;> rfl
@[simp] theorem State.setReg_p : (c.setReg r v).p = c.p := by cases r <;> rfl
@[simp] theorem State.setReg_mem : (c.setReg r v).mem = c.mem := by cases r <;> rfl
@[simp] theorem State.setReg_read : (c.setReg r v).read a = c.read a := by cases r <;> rfl

/-- A register written reads back, and the other three keep their values (R24). -/
theorem State.reg_setReg (q : Reg) : (c.setReg r v).reg q = if q = r then v else c.reg q := by
  cases r <;> cases q <;> rfl

/-! ### The advance of PC -/

@[simp] theorem State.advance_a : (c.advance n).a = c.a := rfl
@[simp] theorem State.advance_x : (c.advance n).x = c.x := rfl
@[simp] theorem State.advance_y : (c.advance n).y = c.y := rfl
@[simp] theorem State.advance_sp : (c.advance n).sp = c.sp := rfl
@[simp] theorem State.advance_pc : (c.advance n).pc = c.pc + BitVec.ofNat 16 n := rfl
@[simp] theorem State.advance_p : (c.advance n).p = c.p := rfl
@[simp] theorem State.advance_mem : (c.advance n).mem = c.mem := rfl
@[simp] theorem State.advance_read : (c.advance n).read a = c.read a := rfl
@[simp] theorem State.advance_reg : (c.advance n).reg r = c.reg r := by cases r <;> rfl

/-! ### A store to memory -/

@[simp] theorem State.write_a : (c.write a v).a = c.a := rfl
@[simp] theorem State.write_x : (c.write a v).x = c.x := rfl
@[simp] theorem State.write_y : (c.write a v).y = c.y := rfl
@[simp] theorem State.write_sp : (c.write a v).sp = c.sp := rfl
@[simp] theorem State.write_pc : (c.write a v).pc = c.pc := rfl
@[simp] theorem State.write_p : (c.write a v).p = c.p := rfl
@[simp] theorem State.write_mem : (c.write a v).mem = c.mem.write a v := rfl

/-! ### Pushes and pops -/

@[simp] theorem push_a : (push b c).a = c.a := rfl
@[simp] theorem push_x : (push b c).x = c.x := rfl
@[simp] theorem push_y : (push b c).y = c.y := rfl
@[simp] theorem push_sp : (push b c).sp = c.sp - 1 := rfl
@[simp] theorem push_pc : (push b c).pc = c.pc := rfl
@[simp] theorem push_p : (push b c).p = c.p := rfl
@[simp] theorem push_mem : (push b c).mem = c.mem.write (stackAddr c.sp) b := rfl

@[simp] theorem pushWord_a : (pushWord w c).a = c.a := rfl
@[simp] theorem pushWord_x : (pushWord w c).x = c.x := rfl
@[simp] theorem pushWord_y : (pushWord w c).y = c.y := rfl
@[simp] theorem pushWord_sp : (pushWord w c).sp = c.sp - 1 - 1 := rfl
@[simp] theorem pushWord_pc : (pushWord w c).pc = c.pc := rfl
@[simp] theorem pushWord_p : (pushWord w c).p = c.p := rfl
@[simp] theorem pushWord_mem : (pushWord w c).mem =
    (c.mem.write (stackAddr c.sp) (hiByte w)).write (stackAddr (c.sp - 1)) (loByte w) := rfl

@[simp] theorem pop_value : (pop c).1 = c.read (stackAddr (c.sp + 1)) := rfl
@[simp] theorem pop_state : (pop c).2 = { c with sp := c.sp + 1 } := rfl

@[simp] theorem popWord_value : (popWord c).1 =
    word (c.read (stackAddr (c.sp + 1 + 1))) (c.read (stackAddr (c.sp + 1))) := rfl
@[simp] theorem popWord_state : (popWord c).2 = { c with sp := c.sp + 1 + 1 } := rfl

end Sys2Proof.Machine
end

