-- ==== Sys2Proof/Laws/Memory.lean ====
section
/-! SUPPORT. The laws of memory: a read after a write, on every list; every write keeps the canonical
form; canonical memories with equal reads are equal data. -/

namespace Sys2Proof.Machine

/-! ### Read after write -/

theorem Memory.readNat_insertCell (m : Memory) (a b : Nat) (v : Byte) (h : ∀ c ∈ m, c.1 ≠ a) :
    Memory.readNat (m.insertCell a v) b = if a = b then v else Memory.readNat m b := by
  induction m with
  | nil => simp [insertCell, readNat]
  | cons c rest ih =>
    obtain ⟨k, u⟩ := c
    have hk : k ≠ a := h (k, u) (by simp)
    have ih := ih fun c hc => h c (by simp [hc])
    simp only [insertCell]
    split
    · simp [readNat]
    · simp only [readNat, ih]
      by_cases hb : k = b
      · subst hb; simp [Ne.symm hk]
      · simp [hb]

theorem Memory.readNat_erase (m : Memory) (a b : Nat) :
    Memory.readNat (m.erase a) b = if a = b then Memory.unlisted else Memory.readNat m b := by
  induction m with
  | nil => simp [erase, readNat]
  | cons c rest ih =>
    obtain ⟨k, u⟩ := c
    simp only [erase] at ih
    by_cases hk : k = a
    · subst hk
      simp only [erase, List.filter_cons, bne_self_eq_false, Bool.false_eq_true, if_false, ih, readNat]
      by_cases hb : k = b <;> simp [hb]
    · simp only [erase, List.filter_cons, bne_iff_ne, ne_eq, hk, not_false_eq_true, if_true, readNat, ih]
      by_cases hb : k = b
      · subst hb; simp [Ne.symm hk]
      · simp [hb]

theorem Memory.mem_erase {m : Memory} {a : Nat} {c : Host.Cell} :
    c ∈ m.erase a ↔ c ∈ m ∧ c.1 ≠ a := by
  simp [erase]

theorem Memory.readNat_writeNat (m : Memory) (a b : Nat) (v : Byte) :
    Memory.readNat (m.writeNat a v) b = if a = b then v else Memory.readNat m b := by
  unfold writeNat
  split
  · rename_i hv
    rw [readNat_erase, hv]
  · rw [readNat_insertCell _ _ _ _ fun c hc => (mem_erase.1 hc).2, readNat_erase]
    by_cases hb : a = b <;> simp [hb]

/-- The byte at `b` after storing `v` at `a` (R36). -/
theorem Memory.read_write (m : Memory) (a b : Addr) (v : Byte) :
    (m.write a v).read b = if b = a then v else m.read b := by
  simp only [read, write, readNat_writeNat, BitVec.toNat_inj, eq_comm]

/-- The same for the whole Processor State. -/
theorem State.read_write (c : State) (a b : Addr) (v : Byte) :
    (c.write a v).read b = if b = a then v else c.read b :=
  Memory.read_write c.mem a b v

@[simp] theorem Memory.read_nil (a : Addr) : Memory.read [] a = Memory.unlisted := rfl

/-! ### The canonical form -/

theorem Memory.wf_nil : Memory.wf [] := by simp [wf]

theorem Memory.wf_erase {m : Memory} (h : m.wf) (a : Nat) : (m.erase a).wf :=
  ⟨h.1.filter _, fun c hc => h.2 c (mem_erase.1 hc).1⟩

theorem Memory.mem_insertCell {m : Memory} {a : Nat} {v : Byte} {c : Host.Cell} :
    c ∈ m.insertCell a v ↔ c = (a, v) ∨ c ∈ m := by
  induction m with
  | nil => simp [insertCell]
  | cons d rest ih =>
    simp only [insertCell]
    split <;> simp [ih, or_left_comm]

theorem Memory.pairwise_insertCell {m : Memory} {a : Nat} {v : Byte}
    (h : m.Pairwise (fun c d => c.1 < d.1)) (hne : ∀ c ∈ m, c.1 ≠ a) :
    (m.insertCell a v).Pairwise (fun c d => c.1 < d.1) := by
  induction m with
  | nil => simp [insertCell]
  | cons d rest ih =>
    obtain ⟨hd, hrest⟩ := List.pairwise_cons.1 h
    have hda : d.1 ≠ a := hne d (by simp)
    simp only [insertCell]
    split
    · rename_i hlt
      refine List.pairwise_cons.2 ⟨fun c hc => ?_, h⟩
      rcases List.mem_cons.1 hc with rfl | hc
      · exact hlt
      · exact Nat.lt_trans hlt (hd c hc)
    · rename_i hge
      refine List.pairwise_cons.2 ⟨fun c hc => ?_, ih hrest fun c hc => hne c (by simp [hc])⟩
      rcases mem_insertCell.1 hc with rfl | hc
      · change d.1 < a
        omega
      · exact hd c hc

theorem Memory.wf_writeNat {m : Memory} (h : m.wf) {a : Nat} (ha : a < Config.memorySize) (v : Byte) :
    (m.writeNat a v).wf := by
  unfold writeNat
  split
  · exact wf_erase h a
  · rename_i hv
    refine ⟨pairwise_insertCell (wf_erase h a).1 fun c hc => (mem_erase.1 hc).2, fun c hc => ?_⟩
    rcases mem_insertCell.1 hc with rfl | hc
    · exact ⟨ha, hv⟩
    · exact (wf_erase h a).2 c hc

/-- Every store keeps the canonical form. -/
theorem Memory.wf_write {m : Memory} (h : m.wf) (a : Addr) (v : Byte) : (m.write a v).wf :=
  wf_writeNat h a.isLt v

theorem State.wf_write {c : State} (h : c.mem.wf) (a : Addr) (v : Byte) : (c.write a v).mem.wf :=
  Memory.wf_write h a v

/-- A byte list stored at consecutive addresses keeps the canonical form. -/
theorem State.wf_writeBytes (bs : List Byte) {c : State} (h : c.mem.wf) (a : Addr) :
    (c.writeBytes a bs).mem.wf := by
  induction bs generalizing c a with
  | nil => exact h
  | cons b rest ih => exact ih (Memory.wf_write h a b) (a + 1)

/-! ### Bytes stored at consecutive addresses (R223) -/

/-- The address after `k` more, from one further on. -/
theorem addr_add_succ (a : Addr) (k : Nat) : a + BitVec.ofNat 16 (k + 1) = a + 1 + BitVec.ofNat 16 k := by
  rw [Nat.add_comm k 1, BitVec.ofNat_add, ← BitVec.add_assoc]
  rfl

/-- Storing bytes changes memory alone. -/
theorem State.writeBytes_eq (bs : List Byte) (a : Addr) (c : State) :
    c.writeBytes a bs = { c with mem := (c.writeBytes a bs).mem } := by
  induction bs generalizing a c with
  | nil => rfl
  | cons b rest ih => rw [State.writeBytes, ih]; rfl

/-- An address that no byte goes to reads as before. -/
theorem State.read_writeBytes_other (bs : List Byte) (a : Addr) (c : State) (x : Addr)
    (h : ∀ k, k < bs.length → x ≠ a + BitVec.ofNat 16 k) : (c.writeBytes a bs).read x = c.read x := by
  induction bs generalizing a c with
  | nil => rfl
  | cons b rest ih =>
    have h0 : x ≠ a := by simpa using h 0 (Nat.succ_pos _)
    rw [State.writeBytes, ih, State.read_write, if_neg h0]
    intro k hk e
    exact h (k + 1) (Nat.succ_lt_succ hk) (e.trans (addr_add_succ a k).symm)

/-- A byte that no later byte overwrites reads back. -/
theorem State.read_writeBytes_at (bs : List Byte) (a : Addr) (c : State) (k : Nat) (b : Byte)
    (hb : bs[k]? = some b)
    (h : ∀ j, k < j → j < bs.length → a + BitVec.ofNat 16 j ≠ a + BitVec.ofNat 16 k) :
    (c.writeBytes a bs).read (a + BitVec.ofNat 16 k) = b := by
  induction bs generalizing a c k with
  | nil => simp at hb
  | cons v rest ih =>
    cases k with
    | zero =>
      have hv : v = b := by simpa using hb
      have ha : a + BitVec.ofNat 16 0 = a := by simp
      rw [State.writeBytes, State.read_writeBytes_other, State.read_write, ha, if_pos rfl, hv]
      intro j hj e
      exact h (j + 1) (Nat.succ_pos j) (Nat.succ_lt_succ hj) ((addr_add_succ a j).trans e.symm)
    | succ k =>
      rw [addr_add_succ, State.writeBytes]
      refine ih (a + 1) (c.write a v) k (by simpa using hb) fun j hj hl e => ?_
      exact h (j + 1) (Nat.succ_lt_succ hj) (Nat.succ_lt_succ hl)
        ((addr_add_succ a j).trans (e.trans (addr_add_succ a k).symm))

/-! ### Listed entries and reads -/

/-- In a canonical memory an entry is what its address reads as. -/
theorem Memory.readNat_of_mem {m : Memory} (h : m.wf) {c : Host.Cell} (hc : c ∈ m) :
    Memory.readNat m c.1 = c.2 := by
  induction m with
  | nil => simp at hc
  | cons d rest ih =>
    obtain ⟨hd, hrest⟩ := List.pairwise_cons.1 h.1
    rcases List.mem_cons.1 hc with rfl | hc
    · simp [readNat]
    · have : d.1 ≠ c.1 := Nat.ne_of_lt (hd c hc)
      simpa [readNat, this] using ih ⟨hrest, fun c hc => h.2 c (by simp [hc])⟩ hc

/-- An address that no entry names reads as the unlisted byte. -/
theorem Memory.readNat_of_not_mem {m : Memory} {a : Nat} (h : ∀ c ∈ m, c.1 ≠ a) :
    Memory.readNat m a = Memory.unlisted := by
  induction m with
  | nil => rfl
  | cons d rest ih =>
    have : d.1 ≠ a := h d (by simp)
    simpa [readNat, this] using ih fun c hc => h c (by simp [hc])

end Sys2Proof.Machine
end

