-- ==== Sys2Proof/Laws/Ops.lean ====
section
/-! SUPPORT. What each shared operation does: the stack, the halt path, the return, the operand forms.
Later proofs cite these and unfold none of them. -/

namespace Sys2Proof.Machine

/-! ### The stack page -/

/-- A stack cell lies in page one (R13, R32). -/
theorem stackAddr_toNat (sp : Byte) : (stackAddr sp).toNat = 256 + sp.toNat := by
  have := sp.isLt
  have hb : Config.stackBase.toNat = 256 := rfl
  simp only [stackAddr, zext16, BitVec.toNat_add, BitVec.toNat_setWidth, hb]
  omega

theorem stackAddr_inj {a b : Byte} : stackAddr a = stackAddr b ↔ a = b := by
  rw [← BitVec.toNat_inj, stackAddr_toNat, stackAddr_toNat, ← BitVec.toNat_inj]
  omega

theorem sub_one_ne (s : Byte) : s - 1 ≠ s := by bv_omega

theorem sub_two_ne (s : Byte) : s - 1 - 1 ≠ s := by bv_omega

/-! ### Pushes and pops -/

/-- A push changes the byte at SP and no other (R103). -/
theorem push_read (b : Byte) (c : State) (a : Addr) :
    (push b c).read a = if a = stackAddr c.sp then b else c.read a :=
  Memory.read_write c.mem _ a b

/-- The two bytes a pushed word leaves (R105). -/
theorem pushWord_read (w : Addr) (c : State) (a : Addr) :
    (pushWord w c).read a =
      if a = stackAddr (c.sp - 1) then loByte w
      else if a = stackAddr c.sp then hiByte w else c.read a := by
  simp only [pushWord, push_read, push_sp]

theorem push_wf {c : State} (h : c.mem.wf) (b : Byte) : (push b c).mem.wf := Memory.wf_write h _ b

theorem pushWord_wf {c : State} (h : c.mem.wf) (w : Addr) : (pushWord w c).mem.wf :=
  push_wf (push_wf h _) _

/-- A word as the number its bytes make (R33). -/
theorem word_toNat (h l : Byte) : (word h l).toNat = h.toNat * 256 + l.toNat := by
  have := l.isLt
  simp only [word, BitVec.toNat_append, Nat.shiftLeft_eq]
  rw [← Nat.shiftLeft_eq, ← Nat.shiftLeft_add_eq_or_of_lt (by omega), Nat.shiftLeft_eq]

theorem hiByte_toNat (w : Addr) : (hiByte w).toNat = w.toNat / 256 := by
  have := w.isLt
  simp only [hiByte, BitVec.extractLsb'_toNat, Nat.shiftRight_eq_div_pow]
  omega

theorem loByte_toNat (w : Addr) : (loByte w).toNat = w.toNat % 256 := by
  simp only [loByte, BitVec.extractLsb'_toNat, Nat.shiftRight_zero]

/-- A word is its two bytes. -/
@[simp] theorem word_hiByte_loByte (w : Addr) : word (hiByte w) (loByte w) = w := by
  apply BitVec.eq_of_toNat_eq
  rw [word_toNat, hiByte_toNat, loByte_toNat]
  omega

@[simp] theorem hiByte_word (h l : Byte) : hiByte (word h l) = h := by
  apply BitVec.eq_of_toNat_eq
  have := l.isLt
  rw [hiByte_toNat, word_toNat]
  omega

@[simp] theorem loByte_word (h l : Byte) : loByte (word h l) = l := by
  apply BitVec.eq_of_toNat_eq
  have := l.isLt
  rw [loByte_toNat, word_toNat]
  omega

/-! ### The halt path and the return -/

/-- The halt path in one record (R183): PC, A, X and Y as they were, SP three lower, I set, and the
three stores. -/
theorem haltPath_eq (c : State) :
    haltPath c =
      { c with
        sp := c.sp - 1 - 1 - 1
        p := setFlag .i c.p
        mem := ((c.mem.write (stackAddr c.sp) (hiByte (c.pc + 2))).write (stackAddr (c.sp - 1))
                  (loByte (c.pc + 2))).write (stackAddr (c.sp - 1 - 1)) c.p } := by
  have h2 : c.pc + BitVec.ofNat 16 2 - 2 = c.pc := by bv_omega
  simp only [haltPath, pushWord, push, State.advance, State.write, h2]
  rfl

/-- The return in one record (R159). -/
theorem returnFromHalt_eq (c : State) :
    returnFromHalt c =
      { c with
        sp := c.sp + 1 + 1 + 1
        p := c.read (stackAddr (c.sp + 1))
        pc := word (c.read (stackAddr (c.sp + 1 + 1 + 1))) (c.read (stackAddr (c.sp + 1 + 1))) + 1 } :=
  rfl

theorem haltPath_wf {c : State} (h : c.mem.wf) : (haltPath c).mem.wf := by
  rw [haltPath_eq]
  exact Memory.wf_write (Memory.wf_write (Memory.wf_write h _ _) _ _) _ _

/-- A call in one record: SP two lower, the two stores, PC at the target (R155 to R157). -/
theorem call_eq (target : Addr) (c : State) :
    call target c =
      { c with
        sp := c.sp - 1 - 1
        pc := target
        mem := (c.mem.write (stackAddr c.sp) (hiByte (c.pc + 2))).write (stackAddr (c.sp - 1))
                 (loByte (c.pc + 2)) } :=
  rfl

/-- The return from a call in one record (R158). -/
theorem returnFromCall_eq (c : State) :
    returnFromCall c =
      { c with
        sp := c.sp + 1 + 1
        pc := word (c.read (stackAddr (c.sp + 1 + 1))) (c.read (stackAddr (c.sp + 1))) + 1 } :=
  rfl

/-- A branch changes PC alone (R160). -/
theorem branch_eq (cond : Bool) (d : Byte) (c : State) :
    branch cond d c = { c with pc := c.pc + 2 + if cond then sext16 d else 0 } := by
  cases cond <;> simp [branch, State.advance]

/-! ### Operand forms -/

/-- The length of an operand-reading instruction. -/
def srcLength : Src → Nat
  | .imm _ => 2
  | .mem m => memLength m

/-- The operand byte: immediate, or the byte at the effective address. -/
def srcValue (o : Src) (c : State) : Byte :=
  match o with
  | .imm l => l
  | .mem m => c.read (effectiveAddress c m)

/-- Reading an operand changes PC alone (R70, R71). -/
@[simp] theorem readOperand_eq (o : Src) (c : State) :
    readOperand o c = (srcValue o c, c.advance (srcLength o)) := by
  cases o <;> rfl

@[simp] theorem resolve_eq (m : MemMode) (c : State) :
    resolve m c = (effectiveAddress c m, c.advance (memLength m)) := rfl

/-- A primitive on a memory cell: the cell and P by the primitive, PC past the instruction (R107). -/
theorem modifyMem_eq (prim : Byte → Byte → Byte × Byte) (m : MemMode) (c : State) :
    modifyMem prim m c =
      { c with
        pc := c.pc + BitVec.ofNat 16 (memLength m)
        p := (prim (c.read (effectiveAddress c m)) c.p).2
        mem := c.mem.write (effectiveAddress c m) (prim (c.read (effectiveAddress c m)) c.p).1 } :=
  rfl

/-- A primitive on a register of a one-byte instruction (R107). -/
theorem modifyReg_eq (prim : Byte → Byte → Byte × Byte) (r : Reg) (c : State) :
    modifyReg prim r c =
      { c.setReg r (prim (c.reg r) c.p).1 with pc := c.pc + 1, p := (prim (c.reg r) c.p).2 } := by
  cases r <;> rfl

theorem modifyMem_wf {c : State} (h : c.mem.wf) (prim : Byte → Byte → Byte × Byte) (m : MemMode) :
    (modifyMem prim m c).mem.wf := Memory.wf_write h _ _

theorem modifyReg_mem (prim : Byte → Byte → Byte × Byte) (r : Reg) (c : State) :
    (modifyReg prim r c).mem = c.mem := by
  cases r <;> rfl

end Sys2Proof.Machine
end

