-- ==== Sys2Proof/Laws/Exec.lean ====
section
/-! SUPPORT. `exec` for each instruction as one record: what changes, by which primitive, and that nothing
else does. Proofs about `exec` cite these and unfold no meaning. -/

namespace Sys2Proof.Machine

theorem exec_lda (o : Src) (s : State) : exec (.lda o) s =
    .next { s with
      a := srcValue o s
      p := setNZ (srcValue o s) s.p
      pc := s.pc + BitVec.ofNat 16 (srcLength o) } := by
  cases o <;> rfl

theorem exec_ldx (o : Src) (s : State) : exec (.ldx o) s =
    .next { s with
      x := srcValue o s
      p := setNZ (srcValue o s) s.p
      pc := s.pc + BitVec.ofNat 16 (srcLength o) } := by
  cases o <;> rfl

theorem exec_ldy (o : Src) (s : State) : exec (.ldy o) s =
    .next { s with
      y := srcValue o s
      p := setNZ (srcValue o s) s.p
      pc := s.pc + BitVec.ofNat 16 (srcLength o) } := by
  cases o <;> rfl

theorem exec_sta (m : MemMode) (s : State) : exec (.sta m) s =
    .next { s with
      pc := s.pc + BitVec.ofNat 16 (memLength m)
      mem := s.mem.write (effectiveAddress s m) s.a } := rfl

theorem exec_stx (m : MemMode) (s : State) : exec (.stx m) s =
    .next { s with
      pc := s.pc + BitVec.ofNat 16 (memLength m)
      mem := s.mem.write (effectiveAddress s m) s.x } := rfl

theorem exec_sty (m : MemMode) (s : State) : exec (.sty m) s =
    .next { s with
      pc := s.pc + BitVec.ofNat 16 (memLength m)
      mem := s.mem.write (effectiveAddress s m) s.y } := rfl

theorem exec_tax (s : State) : exec .tax s =
    .next { s with
      x := s.a
      p := setNZ s.a s.p
      pc := s.pc + 1 } := rfl

theorem exec_txa (s : State) : exec .txa s =
    .next { s with
      a := s.x
      p := setNZ s.x s.p
      pc := s.pc + 1 } := rfl

theorem exec_tay (s : State) : exec .tay s =
    .next { s with
      y := s.a
      p := setNZ s.a s.p
      pc := s.pc + 1 } := rfl

theorem exec_tya (s : State) : exec .tya s =
    .next { s with
      a := s.y
      p := setNZ s.y s.p
      pc := s.pc + 1 } := rfl

theorem exec_tsx (s : State) : exec .tsx s =
    .next { s with
      x := s.sp
      p := setNZ s.sp s.p
      pc := s.pc + 1 } := rfl

theorem exec_txs (s : State) : exec .txs s =
    .next { s with
      sp := s.x
      pc := s.pc + 1 } := rfl

theorem exec_inc (m : MemMode) (s : State) : exec (.inc m) s =
    .next { s with
      pc := s.pc + BitVec.ofNat 16 (memLength m)
      p := (increment (s.read (effectiveAddress s m)) s.p).2
      mem := s.mem.write (effectiveAddress s m) (increment
          (s.read (effectiveAddress s m)) s.p).1 } := rfl

theorem exec_dec (m : MemMode) (s : State) : exec (.dec m) s =
    .next { s with
      pc := s.pc + BitVec.ofNat 16 (memLength m)
      p := (decrement (s.read (effectiveAddress s m)) s.p).2
      mem := s.mem.write (effectiveAddress s m) (decrement
          (s.read (effectiveAddress s m)) s.p).1 } := rfl

theorem exec_inx (s : State) : exec .inx s =
    .next { s with
      x := (increment s.x s.p).1
      p := (increment s.x s.p).2
      pc := s.pc + 1 } := rfl

theorem exec_iny (s : State) : exec .iny s =
    .next { s with
      y := (increment s.y s.p).1
      p := (increment s.y s.p).2
      pc := s.pc + 1 } := rfl

theorem exec_dex (s : State) : exec .dex s =
    .next { s with
      x := (decrement s.x s.p).1
      p := (decrement s.x s.p).2
      pc := s.pc + 1 } := rfl

theorem exec_dey (s : State) : exec .dey s =
    .next { s with
      y := (decrement s.y s.p).1
      p := (decrement s.y s.p).2
      pc := s.pc + 1 } := rfl

theorem exec_cmp (o : Src) (s : State) : exec (.cmp o) s =
    .next { s with
      p := compare s.a (srcValue o s) s.p
      pc := s.pc + BitVec.ofNat 16 (srcLength o) } := by
  cases o <;> rfl

theorem exec_cpx (o : Src) (s : State) : exec (.cpx o) s =
    .next { s with
      p := compare s.x (srcValue o s) s.p
      pc := s.pc + BitVec.ofNat 16 (srcLength o) } := by
  cases o <;> rfl

theorem exec_cpy (o : Src) (s : State) : exec (.cpy o) s =
    .next { s with
      p := compare s.y (srcValue o s) s.p
      pc := s.pc + BitVec.ofNat 16 (srcLength o) } := by
  cases o <;> rfl

theorem exec_and (o : Src) (s : State) : exec (.and o) s =
    .next { s with
      a := s.a &&& srcValue o s
      pc := s.pc + BitVec.ofNat 16 (srcLength o) } := by
  cases o <;> rfl

theorem exec_ora (o : Src) (s : State) : exec (.ora o) s =
    .next { s with
      a := s.a ||| srcValue o s
      p := setNZ (s.a ||| srcValue o s) s.p
      pc := s.pc + BitVec.ofNat 16 (srcLength o) } := by
  cases o <;> rfl

theorem exec_eor (o : Src) (s : State) : exec (.eor o) s =
    .next { s with
      a := s.a ^^^ srcValue o s
      p := setNZ (s.a ^^^ srcValue o s) s.p
      pc := s.pc + BitVec.ofNat 16 (srcLength o) } := by
  cases o <;> rfl

theorem exec_asl_acc (s : State) : exec (.asl .acc) s =
    .next { s with
      a := (shiftLeft s.a s.p).1
      p := (shiftLeft s.a s.p).2
      pc := s.pc + 1 } := rfl

theorem exec_asl_mem (m : MemMode) (s : State) : exec (.asl (.mem m)) s =
    .next { s with
      pc := s.pc + BitVec.ofNat 16 (memLength m)
      p := (shiftLeft (s.read (effectiveAddress s m)) s.p).2
      mem := s.mem.write (effectiveAddress s m) (shiftLeft
          (s.read (effectiveAddress s m)) s.p).1 } := rfl

theorem exec_lsr_acc (s : State) : exec (.lsr .acc) s =
    .next { s with
      a := (shiftRight s.a s.p).1
      p := (shiftRight s.a s.p).2
      pc := s.pc + 1 } := rfl

theorem exec_lsr_mem (m : MemMode) (s : State) : exec (.lsr (.mem m)) s =
    .next { s with
      pc := s.pc + BitVec.ofNat 16 (memLength m)
      p := (shiftRight (s.read (effectiveAddress s m)) s.p).2
      mem := s.mem.write (effectiveAddress s m)
          (shiftRight (s.read (effectiveAddress s m)) s.p).1 } := rfl

theorem exec_rol_acc (s : State) : exec (.rol .acc) s =
    .next { s with
      a := (rotateLeft s.a s.p).1
      p := (rotateLeft s.a s.p).2
      pc := s.pc + 1 } := rfl

theorem exec_rol_mem (m : MemMode) (s : State) : exec (.rol (.mem m)) s =
    .next { s with
      pc := s.pc + BitVec.ofNat 16 (memLength m)
      p := (rotateLeft (s.read (effectiveAddress s m)) s.p).2
      mem := s.mem.write (effectiveAddress s m)
          (rotateLeft (s.read (effectiveAddress s m)) s.p).1 } := rfl

theorem exec_ror_acc (s : State) : exec (.ror .acc) s =
    .next { s with
      a := (rotateRight s.a s.p).1
      p := (rotateRight s.a s.p).2
      pc := s.pc + 1 } := rfl

theorem exec_ror_mem (m : MemMode) (s : State) : exec (.ror (.mem m)) s =
    .next { s with
      pc := s.pc + BitVec.ofNat 16 (memLength m)
      p := (rotateRight (s.read (effectiveAddress s m)) s.p).2
      mem := s.mem.write (effectiveAddress s m)
          (rotateRight (s.read (effectiveAddress s m)) s.p).1 } := rfl

theorem exec_adc (o : Src) (s : State) : exec (.adc o) s =
    .next { s with
      a := (add s.a (srcValue o s) s.p).1
      p := (add s.a (srcValue o s) s.p).2
      pc := s.pc + BitVec.ofNat 16 (srcLength o) } := by
  cases o <;> rfl

theorem exec_sbc (o : Src) (s : State) : exec (.sbc o) s =
    .next { s with
      a := (sub s.a (srcValue o s) s.p).1
      p := (sub s.a (srcValue o s) s.p).2
      pc := s.pc + BitVec.ofNat 16 (srcLength o) } := by
  cases o <;> rfl

theorem exec_jmpAbs (w : Addr) (s : State) : exec (.jmpAbs w) s =
    .next { s with
      sp := s.sp - 1 - 1
      pc := w
      mem := (s.mem.write (stackAddr s.sp) (hiByte (s.pc + 2))).write
          (stackAddr (s.sp - 1)) (loByte (s.pc + 2)) } := rfl

theorem exec_jmpInd (w : Addr) (s : State) : exec (.jmpInd w) s =
    .next { s with
      sp := s.sp - 1 - 1
      pc := indirectTarget w s
      mem := (s.mem.write (stackAddr s.sp) (hiByte (s.pc + 2))).write
          (stackAddr (s.sp - 1)) (loByte (s.pc + 2)) } := rfl

theorem exec_jsr (w : Addr) (s : State) : exec (.jsr w) s =
    .next { s with
      sp := s.sp - 1 - 1
      pc := w
      mem := (s.mem.write (stackAddr s.sp) (hiByte (s.pc + 2))).write
          (stackAddr (s.sp - 1)) (loByte (s.pc + 2)) } := rfl

theorem exec_rts (s : State) : exec .rts s =
    .next { s with
      sp := s.sp + 1 + 1
      pc := word (s.read (stackAddr (s.sp + 1 + 1)))
          (s.read (stackAddr (s.sp + 1))) + 1 } := rfl

theorem exec_rti (s : State) : exec .rti s =
    .next { s with
      sp := s.sp + 1 + 1 + 1
      p := s.read (stackAddr (s.sp + 1))
      pc := word (s.read (stackAddr (s.sp + 1 + 1 + 1)))
          (s.read (stackAddr (s.sp + 1 + 1))) + 1 } := rfl

theorem exec_bcc (d : Byte) (s : State) : exec (.bcc d) s =
    .next { s with
      pc := s.pc + 2 + if !getFlag .c s.p then sext16 d else 0 } :=
  congrArg Host.Outcome.next (branch_eq _ d s)

theorem exec_bcs (d : Byte) (s : State) : exec (.bcs d) s =
    .next { s with
      pc := s.pc + 2 + if getFlag .c s.p then sext16 d else 0 } :=
  congrArg Host.Outcome.next (branch_eq _ d s)

theorem exec_beq (d : Byte) (s : State) : exec (.beq d) s =
    .next { s with
      pc := s.pc + 2 + if getFlag .z s.p then sext16 d else 0 } :=
  congrArg Host.Outcome.next (branch_eq _ d s)

theorem exec_bne (d : Byte) (s : State) : exec (.bne d) s =
    .next { s with
      pc := s.pc + 2 + if !getFlag .z s.p then sext16 d else 0 } :=
  congrArg Host.Outcome.next (branch_eq _ d s)

theorem exec_bmi (d : Byte) (s : State) : exec (.bmi d) s =
    .next { s with
      pc := s.pc + 2 + if getFlag .n s.p then sext16 d else 0 } :=
  congrArg Host.Outcome.next (branch_eq _ d s)

theorem exec_bpl (d : Byte) (s : State) : exec (.bpl d) s =
    .next { s with
      pc := s.pc + 2 + if !getFlag .n s.p then sext16 d else 0 } :=
  congrArg Host.Outcome.next (branch_eq _ d s)

theorem exec_bvc (d : Byte) (s : State) : exec (.bvc d) s =
    .next { s with
      pc := s.pc + 2 + if !getFlag .v s.p then sext16 d else 0 } :=
  congrArg Host.Outcome.next (branch_eq _ d s)

theorem exec_bvs (d : Byte) (s : State) : exec (.bvs d) s =
    .next { s with
      pc := s.pc + 2 + if getFlag .v s.p then sext16 d else 0 } :=
  congrArg Host.Outcome.next (branch_eq _ d s)

theorem exec_sec (s : State) : exec .sec s =
    .next { s with
      p := setFlag .c s.p
      pc := s.pc + 1 } := rfl

theorem exec_clc (s : State) : exec .clc s =
    .next { s with
      p := clearFlag .c s.p
      pc := s.pc + 1 } := rfl

theorem exec_sed (s : State) : exec .sed s =
    .next { s with
      p := setFlag .d s.p
      pc := s.pc + 1 } := rfl

theorem exec_cld (s : State) : exec .cld s =
    .next { s with
      p := clearFlag .d s.p
      pc := s.pc + 1 } := rfl

theorem exec_sei (s : State) : exec .sei s =
    .next { s with
      p := setFlag .i s.p
      pc := s.pc + 1 } := rfl

theorem exec_cli (s : State) : exec .cli s =
    .next { s with
      p := clearFlag .i s.p
      pc := s.pc + 1 } := rfl

theorem exec_clv (s : State) : exec .clv s =
    .next { s with
      p := clearFlag .v s.p
      pc := s.pc + 1 } := rfl

theorem exec_nop (s : State) : exec .nop s =
    .next { s with
      pc := s.pc + 1 } := rfl

theorem exec_brk (s : State) : exec .brk s = .next (haltPath s) := rfl

theorem exec_unrecognized (op : Byte) (s : State) : exec (.unrecognized op) s =
    .next (haltPath s) := rfl

/-! ### The step -/

/-- A step is the fetched instruction (R4). -/
theorem step_eq (s : State) : step s = exec (fetch s) s := rfl

/-- Its `continue` is the fetched instruction's (R185). -/
theorem stepContinue_eq (s : State) : stepContinue s = continueOf (fetch s) := rfl

/-- What a step yields, from its next state. -/
theorem stepResult_of_step {s t : State} (h : step s = .next t) :
    stepResult s = .next { state := t, cont := stepContinue s } := by
  simp only [stepResult, h]

end Sys2Proof.Machine
end

