-- ==== Sys2Proof/Laws/PerInstr.lean ====
section
/-! SUPPORT. The family EncodedLength: an instruction that has an encoding has as many bytes as its
format gives it (30_encoding.md rules R50, R58). -/

namespace Sys2Proof.Laws.EncodedLength

open Sys2Proof.Machine

/-- The encoding of `i`, where it has one, is `instrLength i` bytes long. -/
def Statement (i : Instr) : Prop := ∀ bs, encode i = some bs → bs.length = instrLength i

/-- An instruction whose encoding is one known list. -/
theorem fixed {i : Instr} {bs : List Byte} (h : encode i = some bs)
    (hl : bs.length = instrLength i) : Statement i := by
  intro bs' h'
  rw [h] at h'
  cases h'
  exact hl

theorem lda (o : Src) : Statement (.lda o) := by
  cases o with
  | imm l => exact fixed rfl rfl
  | mem m => exact fun _ h => encodeMem_length h

theorem ldx (o : Src) : Statement (.ldx o) := by
  cases o with
  | imm l => exact fixed rfl rfl
  | mem m => exact fun _ h => encodeMem_length h

theorem ldy (o : Src) : Statement (.ldy o) := by
  cases o with
  | imm l => exact fixed rfl rfl
  | mem m => exact fun _ h => encodeMem_length h

theorem sta (m : MemMode) : Statement (.sta m) := fun _ h => encodeMem_length h

theorem stx (m : MemMode) : Statement (.stx m) := fun _ h => encodeMem_length h

theorem sty (m : MemMode) : Statement (.sty m) := fun _ h => encodeMem_length h

theorem tax : Statement .tax := fixed rfl rfl

theorem txa : Statement .txa := fixed rfl rfl

theorem tay : Statement .tay := fixed rfl rfl

theorem tya : Statement .tya := fixed rfl rfl

theorem tsx : Statement .tsx := fixed rfl rfl

theorem txs : Statement .txs := fixed rfl rfl

theorem inc (m : MemMode) : Statement (.inc m) := fun _ h => encodeMem_length h

theorem dec (m : MemMode) : Statement (.dec m) := fun _ h => encodeMem_length h

theorem inx : Statement .inx := fixed rfl rfl

theorem iny : Statement .iny := fixed rfl rfl

theorem dex : Statement .dex := fixed rfl rfl

theorem dey : Statement .dey := fixed rfl rfl

theorem cmp (o : Src) : Statement (.cmp o) := by
  cases o with
  | imm l => exact fixed rfl rfl
  | mem m => exact fun _ h => encodeMem_length h

theorem cpx (o : Src) : Statement (.cpx o) := by
  cases o with
  | imm l => exact fixed rfl rfl
  | mem m => exact fun _ h => encodeMem_length h

theorem cpy (o : Src) : Statement (.cpy o) := by
  cases o with
  | imm l => exact fixed rfl rfl
  | mem m => exact fun _ h => encodeMem_length h

theorem and (o : Src) : Statement (.and o) := by
  cases o with
  | imm l => exact fixed rfl rfl
  | mem m => exact fun _ h => encodeMem_length h

theorem ora (o : Src) : Statement (.ora o) := by
  cases o with
  | imm l => exact fixed rfl rfl
  | mem m => exact fun _ h => encodeMem_length h

theorem eor (o : Src) : Statement (.eor o) := by
  cases o with
  | imm l => exact fixed rfl rfl
  | mem m => exact fun _ h => encodeMem_length h

theorem asl (t : Target) : Statement (.asl t) := by
  cases t with
  | acc => exact fixed rfl rfl
  | mem m => exact fun _ h => encodeMem_length h

theorem lsr (t : Target) : Statement (.lsr t) := by
  cases t with
  | acc => exact fixed rfl rfl
  | mem m => exact fun _ h => encodeMem_length h

theorem rol (t : Target) : Statement (.rol t) := by
  cases t with
  | acc => exact fixed rfl rfl
  | mem m => exact fun _ h => encodeMem_length h

theorem ror (t : Target) : Statement (.ror t) := by
  cases t with
  | acc => exact fixed rfl rfl
  | mem m => exact fun _ h => encodeMem_length h

theorem adc (o : Src) : Statement (.adc o) := by
  cases o with
  | imm l => exact fixed rfl rfl
  | mem m => exact fun _ h => encodeMem_length h

theorem sbc (o : Src) : Statement (.sbc o) := by
  cases o with
  | imm l => exact fixed rfl rfl
  | mem m => exact fun _ h => encodeMem_length h

theorem jmpAbs (target : Addr) : Statement (.jmpAbs target) := fixed rfl rfl

theorem jmpInd (pointer : Addr) : Statement (.jmpInd pointer) := fixed rfl rfl

theorem jsr (target : Addr) : Statement (.jsr target) := fixed rfl rfl

theorem rts : Statement .rts := fixed rfl rfl

theorem rti : Statement .rti := fixed rfl rfl

theorem bcc (d : Byte) : Statement (.bcc d) := fixed rfl rfl

theorem bcs (d : Byte) : Statement (.bcs d) := fixed rfl rfl

theorem beq (d : Byte) : Statement (.beq d) := fixed rfl rfl

theorem bne (d : Byte) : Statement (.bne d) := fixed rfl rfl

theorem bmi (d : Byte) : Statement (.bmi d) := fixed rfl rfl

theorem bpl (d : Byte) : Statement (.bpl d) := fixed rfl rfl

theorem bvc (d : Byte) : Statement (.bvc d) := fixed rfl rfl

theorem bvs (d : Byte) : Statement (.bvs d) := fixed rfl rfl

theorem sec : Statement .sec := fixed rfl rfl

theorem clc : Statement .clc := fixed rfl rfl

theorem sed : Statement .sed := fixed rfl rfl

theorem cld : Statement .cld := fixed rfl rfl

theorem sei : Statement .sei := fixed rfl rfl

theorem cli : Statement .cli := fixed rfl rfl

theorem clv : Statement .clv := fixed rfl rfl

theorem nop : Statement .nop := fixed rfl rfl

theorem brk : Statement .brk := fixed rfl rfl

theorem unrecognized (op : Byte) : Statement (.unrecognized op) := by
  intro bs h
  simp only [encode] at h
  split at h
  · cases h
    rfl
  · cases h

end Sys2Proof.Laws.EncodedLength
end

