-- ==== Sys2Proof/Tests/Slice0.lean ====
section
/-! SUPPORT. The model's own tests: the terms WellFormed refuses; every opcode byte of the spec's map
written out from 30_encoding.md rule R55; single steps whose expected results are the rows of
95_test_vectors.md; and, for each obligation with hypotheses, a state and operands that meet them. -/

namespace Sys2Proof.Tests

open Sys2Proof.Machine Sys2Proof.Claims

/-! ### WellFormed refuses what is no instruction (R55, R56) -/

theorem test_refused_load_forms :
    (Instr.lda (.mem (.zpy 0x10))).wellFormed = false ∧ (Instr.ldx (.mem (.zpx 0x10))).wellFormed = false ∧
    (Instr.ldy (.mem (.absy 0x1234))).wellFormed = false := by decide

theorem test_refused_store_forms :
    (Instr.sta (.zpy 0x10)).wellFormed = false ∧ (Instr.stx (.absy 0x1234)).wellFormed = false ∧
    (Instr.sty (.absx 0x1234)).wellFormed = false := by decide

theorem test_refused_modify_forms :
    (Instr.inc (.absy 0x1234)).wellFormed = false ∧ (Instr.dec (.indx 0x10)).wellFormed = false ∧
    (Instr.asl (.mem (.zpy 0x10))).wellFormed = false ∧ (Instr.lsr (.mem (.absy 0x1234))).wellFormed = false ∧
    (Instr.rol (.mem (.indx 0x10))).wellFormed = false ∧ (Instr.ror (.mem (.indy 0x10))).wellFormed = false := by
  decide

theorem test_refused_compare_forms :
    (Instr.cmp (.mem (.zpy 0x10))).wellFormed = false ∧ (Instr.cpx (.mem (.zpx 0x10))).wellFormed = false ∧
    (Instr.cpy (.mem (.absx 0x1234))).wellFormed = false := by decide

theorem test_refused_accumulator_forms :
    (Instr.and (.mem (.zpy 0x10))).wellFormed = false ∧ (Instr.ora (.mem (.zpy 0x10))).wellFormed = false ∧
    (Instr.eor (.mem (.zpy 0x10))).wellFormed = false ∧ (Instr.adc (.mem (.zpy 0x10))).wellFormed = false ∧
    (Instr.sbc (.mem (.zpy 0x10))).wellFormed = false := by decide

/-- 0xA9 is LDA immediate, and 0x00 is BRK. -/
theorem test_refused_unrecognized :
    (Instr.unrecognized 0xA9).wellFormed = false ∧ (Instr.unrecognized 0x00).wellFormed = false := by decide

/-- What is no instruction has no encoding. -/
theorem test_no_encoding :
    encode (.sta (.zpy 0x10)) = none ∧ encode (.unrecognized 0xA9) = none := by decide

/-! ### Words written out from the encodings of R55

Three opcode bytes and one unmapped one are the source's; the rest are the conventional assignment. -/

/-- Bit by bit: LDA immediate, INC zero-page, ROR accumulator, JSR, SED. -/
theorem test_words_bit_by_bit :
    decodeTableWord 16 0b11111111_10101001 = some (.lda (.imm 0xFF)) ∧
    decodeTableWord 16 0b00010000_11100110 = some (.inc (.zp 0x10)) ∧
    decodeTableWord 8 0b01101010 = some (.ror .acc) ∧
    decodeTableWord 24 0b11110000_00000001_00100000 = some (.jsr 0xF001) ∧
    decodeTableWord 8 0b11111000 = some .sed := by decide

def wordsLoadStoreTransfer1 : List (List Byte × Instr) :=
  [([0xA9, 0x12], .lda (.imm 0x12)), ([0xA5, 0x12], .lda (.mem (.zp 0x12))),
   ([0xB5, 0x12], .lda (.mem (.zpx 0x12))), ([0xAD, 0x12, 0x34], .lda (.mem (.abs 0x3412))),
   ([0xBD, 0x12, 0x34], .lda (.mem (.absx 0x3412))),
   ([0xB9, 0x12, 0x34], .lda (.mem (.absy 0x3412))), ([0xA1, 0x12], .lda (.mem (.indx 0x12))),
   ([0xB1, 0x12], .lda (.mem (.indy 0x12)))]

def wordsLoadStoreTransfer2 : List (List Byte × Instr) :=
  [([0xA2, 0x12], .ldx (.imm 0x12)), ([0xA6, 0x12], .ldx (.mem (.zp 0x12))),
   ([0xB6, 0x12], .ldx (.mem (.zpy 0x12))), ([0xAE, 0x12, 0x34], .ldx (.mem (.abs 0x3412))),
   ([0xBE, 0x12, 0x34], .ldx (.mem (.absy 0x3412))), ([0xA0, 0x12], .ldy (.imm 0x12)),
   ([0xA4, 0x12], .ldy (.mem (.zp 0x12))), ([0xB4, 0x12], .ldy (.mem (.zpx 0x12))),
   ([0xAC, 0x12, 0x34], .ldy (.mem (.abs 0x3412))),
   ([0xBC, 0x12, 0x34], .ldy (.mem (.absx 0x3412)))]

def wordsLoadStoreTransfer3 : List (List Byte × Instr) :=
  [([0x85, 0x12], .sta (.zp 0x12)), ([0x95, 0x12], .sta (.zpx 0x12)),
   ([0x8D, 0x12, 0x34], .sta (.abs 0x3412)), ([0x9D, 0x12, 0x34], .sta (.absx 0x3412)),
   ([0x99, 0x12, 0x34], .sta (.absy 0x3412)), ([0x81, 0x12], .sta (.indx 0x12)),
   ([0x91, 0x12], .sta (.indy 0x12))]

def wordsLoadStoreTransfer4 : List (List Byte × Instr) :=
  [([0x86, 0x12], .stx (.zp 0x12)), ([0x96, 0x12], .stx (.zpy 0x12)),
   ([0x8E, 0x12, 0x34], .stx (.abs 0x3412)), ([0x84, 0x12], .sty (.zp 0x12)),
   ([0x94, 0x12], .sty (.zpx 0x12)), ([0x8C, 0x12, 0x34], .sty (.abs 0x3412))]

def wordsLoadStoreTransfer5 : List (List Byte × Instr) :=
  [([0xAA], .tax), ([0x8A], .txa), ([0xA8], .tay), ([0x98], .tya), ([0xBA], .tsx),
   ([0x9A], .txs)]

def wordsLoadStoreTransfer : List (List Byte × Instr) :=
  wordsLoadStoreTransfer1 ++ wordsLoadStoreTransfer2 ++ wordsLoadStoreTransfer3 ++
    wordsLoadStoreTransfer4 ++ wordsLoadStoreTransfer5

def wordsIncDecCompare1 : List (List Byte × Instr) :=
  [([0xE6, 0x12], .inc (.zp 0x12)), ([0xF6, 0x12], .inc (.zpx 0x12)),
   ([0xEE, 0x12, 0x34], .inc (.abs 0x3412)), ([0xFE, 0x12, 0x34], .inc (.absx 0x3412)),
   ([0xC6, 0x12], .dec (.zp 0x12)), ([0xD6, 0x12], .dec (.zpx 0x12)),
   ([0xCE, 0x12, 0x34], .dec (.abs 0x3412)), ([0xDE, 0x12, 0x34], .dec (.absx 0x3412))]

def wordsIncDecCompare2 : List (List Byte × Instr) :=
  [([0xE8], .inx), ([0xC8], .iny), ([0xCA], .dex), ([0x88], .dey),
   ([0xC9, 0x12], .cmp (.imm 0x12)), ([0xC5, 0x12], .cmp (.mem (.zp 0x12))),
   ([0xD5, 0x12], .cmp (.mem (.zpx 0x12))), ([0xCD, 0x12, 0x34], .cmp (.mem (.abs 0x3412))),
   ([0xDD, 0x12, 0x34], .cmp (.mem (.absx 0x3412))),
   ([0xD9, 0x12, 0x34], .cmp (.mem (.absy 0x3412))), ([0xC1, 0x12], .cmp (.mem (.indx 0x12))),
   ([0xD1, 0x12], .cmp (.mem (.indy 0x12)))]

def wordsIncDecCompare3 : List (List Byte × Instr) :=
  [([0xE0, 0x12], .cpx (.imm 0x12)), ([0xE4, 0x12], .cpx (.mem (.zp 0x12))),
   ([0xEC, 0x12, 0x34], .cpx (.mem (.abs 0x3412))), ([0xC0, 0x12], .cpy (.imm 0x12)),
   ([0xC4, 0x12], .cpy (.mem (.zp 0x12))), ([0xCC, 0x12, 0x34], .cpy (.mem (.abs 0x3412)))]

def wordsIncDecCompare : List (List Byte × Instr) :=
  wordsIncDecCompare1 ++ wordsIncDecCompare2 ++ wordsIncDecCompare3

def wordsLogicShiftArith1 : List (List Byte × Instr) :=
  [([0x29, 0x12], .and (.imm 0x12)), ([0x25, 0x12], .and (.mem (.zp 0x12))),
   ([0x35, 0x12], .and (.mem (.zpx 0x12))), ([0x2D, 0x12, 0x34], .and (.mem (.abs 0x3412))),
   ([0x3D, 0x12, 0x34], .and (.mem (.absx 0x3412))),
   ([0x39, 0x12, 0x34], .and (.mem (.absy 0x3412))), ([0x21, 0x12], .and (.mem (.indx 0x12))),
   ([0x31, 0x12], .and (.mem (.indy 0x12)))]

def wordsLogicShiftArith2 : List (List Byte × Instr) :=
  [([0x09, 0x12], .ora (.imm 0x12)), ([0x05, 0x12], .ora (.mem (.zp 0x12))),
   ([0x15, 0x12], .ora (.mem (.zpx 0x12))), ([0x0D, 0x12, 0x34], .ora (.mem (.abs 0x3412))),
   ([0x1D, 0x12, 0x34], .ora (.mem (.absx 0x3412))),
   ([0x19, 0x12, 0x34], .ora (.mem (.absy 0x3412))), ([0x01, 0x12], .ora (.mem (.indx 0x12))),
   ([0x11, 0x12], .ora (.mem (.indy 0x12)))]

def wordsLogicShiftArith3 : List (List Byte × Instr) :=
  [([0x49, 0x12], .eor (.imm 0x12)), ([0x45, 0x12], .eor (.mem (.zp 0x12))),
   ([0x55, 0x12], .eor (.mem (.zpx 0x12))), ([0x4D, 0x12, 0x34], .eor (.mem (.abs 0x3412))),
   ([0x5D, 0x12, 0x34], .eor (.mem (.absx 0x3412))),
   ([0x59, 0x12, 0x34], .eor (.mem (.absy 0x3412))), ([0x41, 0x12], .eor (.mem (.indx 0x12))),
   ([0x51, 0x12], .eor (.mem (.indy 0x12)))]

def wordsLogicShiftArith4 : List (List Byte × Instr) :=
  [([0x06, 0x12], .asl (.mem (.zp 0x12))), ([0x16, 0x12], .asl (.mem (.zpx 0x12))),
   ([0x0E, 0x12, 0x34], .asl (.mem (.abs 0x3412))),
   ([0x1E, 0x12, 0x34], .asl (.mem (.absx 0x3412))), ([0x0A], .asl .acc),
   ([0x46, 0x12], .lsr (.mem (.zp 0x12))), ([0x56, 0x12], .lsr (.mem (.zpx 0x12))),
   ([0x4E, 0x12, 0x34], .lsr (.mem (.abs 0x3412))),
   ([0x5E, 0x12, 0x34], .lsr (.mem (.absx 0x3412))), ([0x4A], .lsr .acc)]

def wordsLogicShiftArith5 : List (List Byte × Instr) :=
  [([0x26, 0x12], .rol (.mem (.zp 0x12))), ([0x36, 0x12], .rol (.mem (.zpx 0x12))),
   ([0x2E, 0x12, 0x34], .rol (.mem (.abs 0x3412))),
   ([0x3E, 0x12, 0x34], .rol (.mem (.absx 0x3412))), ([0x2A], .rol .acc),
   ([0x66, 0x12], .ror (.mem (.zp 0x12))), ([0x76, 0x12], .ror (.mem (.zpx 0x12))),
   ([0x6E, 0x12, 0x34], .ror (.mem (.abs 0x3412))),
   ([0x7E, 0x12, 0x34], .ror (.mem (.absx 0x3412))), ([0x6A], .ror .acc)]

def wordsLogicShiftArith6 : List (List Byte × Instr) :=
  [([0x69, 0x12], .adc (.imm 0x12)), ([0x65, 0x12], .adc (.mem (.zp 0x12))),
   ([0x75, 0x12], .adc (.mem (.zpx 0x12))), ([0x6D, 0x12, 0x34], .adc (.mem (.abs 0x3412))),
   ([0x7D, 0x12, 0x34], .adc (.mem (.absx 0x3412))),
   ([0x79, 0x12, 0x34], .adc (.mem (.absy 0x3412))), ([0x61, 0x12], .adc (.mem (.indx 0x12))),
   ([0x71, 0x12], .adc (.mem (.indy 0x12)))]

def wordsLogicShiftArith7 : List (List Byte × Instr) :=
  [([0xE9, 0x12], .sbc (.imm 0x12)), ([0xE5, 0x12], .sbc (.mem (.zp 0x12))),
   ([0xF5, 0x12], .sbc (.mem (.zpx 0x12))), ([0xED, 0x12, 0x34], .sbc (.mem (.abs 0x3412))),
   ([0xFD, 0x12, 0x34], .sbc (.mem (.absx 0x3412))),
   ([0xF9, 0x12, 0x34], .sbc (.mem (.absy 0x3412))), ([0xE1, 0x12], .sbc (.mem (.indx 0x12))),
   ([0xF1, 0x12], .sbc (.mem (.indy 0x12)))]

def wordsLogicShiftArith : List (List Byte × Instr) :=
  wordsLogicShiftArith1 ++ wordsLogicShiftArith2 ++ wordsLogicShiftArith3 ++ wordsLogicShiftArith4 ++
    wordsLogicShiftArith5 ++ wordsLogicShiftArith6 ++ wordsLogicShiftArith7

def wordsControlFlow1 : List (List Byte × Instr) :=
  [([0x4C, 0x12, 0x34], .jmpAbs 0x3412), ([0x6C, 0x12, 0x34], .jmpInd 0x3412),
   ([0x20, 0x12, 0x34], .jsr 0x3412), ([0x60], .rts), ([0x40], .rti), ([0x90, 0x12], .bcc 0x12)]

def wordsControlFlow2 : List (List Byte × Instr) :=
  [([0xB0, 0x12], .bcs 0x12), ([0xF0, 0x12], .beq 0x12), ([0xD0, 0x12], .bne 0x12),
   ([0x30, 0x12], .bmi 0x12), ([0x10, 0x12], .bpl 0x12), ([0x50, 0x12], .bvc 0x12)]

def wordsControlFlow3 : List (List Byte × Instr) :=
  [([0x70, 0x12], .bvs 0x12)]

def wordsControlFlow : List (List Byte × Instr) :=
  wordsControlFlow1 ++ wordsControlFlow2 ++ wordsControlFlow3

def wordsFlagsNopBrk1 : List (List Byte × Instr) :=
  [([0x38], .sec), ([0x18], .clc), ([0xF8], .sed), ([0xD8], .cld), ([0x78], .sei),
   ([0x58], .cli)]

def wordsFlagsNopBrk2 : List (List Byte × Instr) :=
  [([0xB8], .clv), ([0xEA], .nop), ([0x00], .brk)]

def wordsFlagsNopBrk : List (List Byte × Instr) :=
  wordsFlagsNopBrk1 ++ wordsFlagsNopBrk2

theorem test_decode_LoadStoreTransfer : ∀ w ∈ wordsLoadStoreTransfer, decode w.1 = .ok (w.2, []) := by decide

theorem test_decode_IncDecCompare : ∀ w ∈ wordsIncDecCompare, decode w.1 = .ok (w.2, []) := by decide

theorem test_decode_LogicShiftArith : ∀ w ∈ wordsLogicShiftArith, decode w.1 = .ok (w.2, []) := by decide

theorem test_decode_ControlFlow : ∀ w ∈ wordsControlFlow, decode w.1 = .ok (w.2, []) := by decide

theorem test_decode_FlagsNopBrk : ∀ w ∈ wordsFlagsNopBrk, decode w.1 = .ok (w.2, []) := by decide

/-- The words above are all 145 recognized opcode bytes, and the list of R56 the other 111. -/
theorem test_counts :
    wordsLoadStoreTransfer.length + wordsIncDecCompare.length + wordsLogicShiftArith.length +
      wordsControlFlow.length + wordsFlagsNopBrk.length = 145 ∧
    unrecognizedOpcodes.length = 111 := by decide

theorem test_decode_unrecognized :
    ∀ op ∈ ([0x02, 0x48, 0x80, 0xFC, 0xFF] : List Byte), decode [op] = .ok (.unrecognized op, []) := by decide

/-- The six bytes of R57 are in the list of R56. -/
theorem test_unlisted_are_unrecognized :
    ∀ op ∈ Config.unlistedStandardOpcodes, op ∈ unrecognizedOpcodes := by decide

/-- The host's word for a row leaves operand bits 0: A9 alone is LDA immediate 0. -/
theorem test_decodeTableWord_short : decodeTableWord 8 0xA9 = some (.lda (.imm 0x00)) := by decide

/-! ### One step, against the rows of 95_test_vectors.md -/

/-- The vectors' start state: reset, PC = 0x0200. -/
def start : State := { State.reset with pc := 0x0200 }

/-- `c` with the listed bytes of memory, and `bytes` placed at PC. -/
def placed (bytes : List Byte) (c : State) (cells : List (Addr × Byte)) : State :=
  (cells.foldl (fun c w => c.write w.1 w.2) c).writeBytes c.pc bytes

/-- What a step answers, where it answers a next state. -/
def answered (o : Host.Outcome StepResult Fault Refusal) : Option StepResult :=
  match o with
  | .next r => some r
  | .fault r => nomatch r
  | .refused _ => none

/-- One step: the registers after it (A, X, Y, SP, PC, P), `continue`, and the bytes at `cells`. -/
def stepOn (bytes : List Byte) (c : State) (mem : List (Addr × Byte)) (cells : List Addr) :
    Option (Snapshot × Bool × List Byte) :=
  (answered (stepResult (placed bytes c mem))).map fun r =>
    (readRegisters r.state, r.cont, cells.map r.state.read)

/-- Vector AM12 (R78). -/
theorem test_lda_AM12 :
    stepOn [0xA1, 0xFE] { start with x := 0x01 } [(0x0000, 0x99), (0x00FF, 0x34), (0x0100, 0x12), (0x1234, 0x65), (0x9934, 0xEE)] [] =
      some (⟨0x65, 0x01, 0x00, 0xFF, 0x0202, 0x00⟩, true, []) := by decide

/-- Vector AM16 (R79). -/
theorem test_lda_AM16 :
    stepOn [0xB1, 0xFF] { start with y := 0x01 } [(0x0000, 0x77), (0x00FF, 0x10), (0x0100, 0x20), (0x2011, 0xED)] [] =
      some (⟨0xED, 0x00, 0x01, 0xFF, 0x0202, 0x80⟩, true, []) := by decide

/-- Vector LS5 (R111). -/
theorem test_ldx_LS5 :
    stepOn [0xBE, 0xFF, 0x00] { start with y := 0x01 } [(0x0100, 0x33)] [] =
      some (⟨0x00, 0x33, 0x01, 0xFF, 0x0203, 0x00⟩, true, []) := by decide

/-- Vector AM6 (R74). -/
theorem test_ldx_AM6 :
    stepOn [0xB6, 0xFF] { start with y := 0x02 } [(0x0001, 0x9A)] [] =
      some (⟨0x00, 0x9A, 0x02, 0xFF, 0x0202, 0x80⟩, true, []) := by decide

/-- Vector LS6 (R112). -/
theorem test_ldy_LS6 :
    stepOn [0xA4, 0x10] { start with p := 0x80 } [] [] =
      some (⟨0x00, 0x00, 0x00, 0xFF, 0x0202, 0x02⟩, true, []) := by decide

/-- Vector LS7 (R112). -/
theorem test_ldy_LS7 :
    stepOn [0xBC, 0x00, 0x40] { start with x := 0x05 } [(0x4005, 0xFE)] [] =
      some (⟨0x00, 0x05, 0xFE, 0xFF, 0x0203, 0x80⟩, true, []) := by decide

/-- Vector LS8 (R113). -/
theorem test_sta_LS8 :
    stepOn [0x9D, 0x01, 0x00] { start with a := 0x42, x := 0xFF, p := 0xC3 } [] [0x0100] =
      some (⟨0x42, 0xFF, 0x00, 0xFF, 0x0203, 0xC3⟩, true, [0x42]) := by decide

/-- Vector LS11 (R113). -/
theorem test_sta_LS11 :
    stepOn [0x81, 0x10] { start with a := 0xA5, x := 0x02 } [(0x0012, 0x00), (0x0013, 0x80)] [0x8000] =
      some (⟨0xA5, 0x02, 0x00, 0xFF, 0x0202, 0x00⟩, true, [0xA5]) := by decide

/-- Vector LS12 (R114). -/
theorem test_stx_LS12 :
    stepOn [0x96, 0xFF] { start with x := 0x07, y := 0x02 } [] [0x0001] =
      some (⟨0x00, 0x07, 0x02, 0xFF, 0x0202, 0x00⟩, true, [0x07]) := by decide

/-- Vector LS15 (R115). -/
theorem test_sty_LS15 :
    stepOn [0x94, 0x80] { start with x := 0x81, y := 0x11 } [] [0x0001] =
      some (⟨0x00, 0x81, 0x11, 0xFF, 0x0202, 0x00⟩, true, [0x11]) := by decide

/-- Vector LS17 (R116). -/
theorem test_tax_LS17 :
    stepOn [0xAA] { start with x := 0x55, p := 0x80 } [] [] =
      some (⟨0x00, 0x00, 0x00, 0xFF, 0x0201, 0x02⟩, true, []) := by decide

/-- Vector LS18 (R117). -/
theorem test_txa_LS18 :
    stepOn [0x8A] { start with a := 0x05 } [] [] =
      some (⟨0x00, 0x00, 0x00, 0xFF, 0x0201, 0x02⟩, true, []) := by decide

/-- Vector LS19 (R118). -/
theorem test_tay_LS19 :
    stepOn [0xA8] { start with a := 0x01, p := 0x82 } [] [] =
      some (⟨0x01, 0x00, 0x01, 0xFF, 0x0201, 0x00⟩, true, []) := by decide

/-- Vector LS20 (R119). -/
theorem test_tya_LS20 :
    stepOn [0x98] { start with y := 0xFF } [] [] =
      some (⟨0xFF, 0x00, 0xFF, 0xFF, 0x0201, 0x80⟩, true, []) := by decide

/-- Vector LS22 (R120). -/
theorem test_tsx_LS22 :
    stepOn [0xBA] { start with x := 0x09, sp := 0x00 } [] [] =
      some (⟨0x00, 0x00, 0x00, 0x00, 0x0201, 0x02⟩, true, []) := by decide

/-- Vector LS23 (R121). -/
theorem test_txs_LS23 :
    stepOn [0x9A] start [] [] =
      some (⟨0x00, 0x00, 0x00, 0x00, 0x0201, 0x00⟩, true, []) := by decide

/-- Vector LS24 (R121). -/
theorem test_txs_LS24 :
    stepOn [0x9A] { start with x := 0x80, p := 0x02 } [] [] =
      some (⟨0x00, 0x80, 0x00, 0x80, 0x0201, 0x02⟩, true, []) := by decide

/-- Vector ID1 (R125). -/
theorem test_inc_ID1 :
    stepOn [0xE6, 0x10] { start with p := 0x01 } [(0x0010, 0xFF)] [0x0010] =
      some (⟨0x00, 0x00, 0x00, 0xFF, 0x0202, 0x03⟩, true, [0x00]) := by decide

/-- Vector ME3 (R39). -/
theorem test_inc_ME3 :
    stepOn [0xEE, 0x00, 0x02] start [] [0x0200] =
      some (⟨0x00, 0x00, 0x00, 0xFF, 0x0203, 0x80⟩, true, [0xEF]) := by decide

/-- Vector ID4 (R126). -/
theorem test_dec_ID4 :
    stepOn [0xC6, 0x10] start [] [0x0010] =
      some (⟨0x00, 0x00, 0x00, 0xFF, 0x0202, 0x80⟩, true, [0xFF]) := by decide

/-- Vector ID5 (R126). -/
theorem test_dec_ID5 :
    stepOn [0xD6, 0xF0] { start with x := 0x20 } [(0x0010, 0x80)] [0x0010] =
      some (⟨0x00, 0x20, 0x00, 0xFF, 0x0202, 0x00⟩, true, [0x7F]) := by decide

/-- Vector ID7 (R127). -/
theorem test_inx_ID7 :
    stepOn [0xE8] { start with x := 0xFF, p := 0xC1 } [] [] =
      some (⟨0x00, 0x00, 0x00, 0xFF, 0x0201, 0x43⟩, true, []) := by decide

/-- Vector ID8 (R128). -/
theorem test_iny_ID8 :
    stepOn [0xC8] start [] [] =
      some (⟨0x00, 0x00, 0x01, 0xFF, 0x0201, 0x00⟩, true, []) := by decide

/-- Vector ID10 (R129). -/
theorem test_dex_ID10 :
    stepOn [0xCA] start [] [] =
      some (⟨0x00, 0xFF, 0x00, 0xFF, 0x0201, 0x80⟩, true, []) := by decide

/-- Vector ID11 (R130). -/
theorem test_dey_ID11 :
    stepOn [0x88] start [] [] =
      some (⟨0x00, 0x00, 0xFF, 0xFF, 0x0201, 0x80⟩, true, []) := by decide

/-- Vector ID14 (R131). -/
theorem test_cmp_ID14 :
    stepOn [0xC9, 0x01] { start with a := 0x80 } [] [] =
      some (⟨0x80, 0x00, 0x00, 0xFF, 0x0202, 0x01⟩, true, []) := by decide

/-- Vector ID17 (R131). -/
theorem test_cmp_ID17 :
    stepOn [0xD1, 0x20] { start with a := 0x33, y := 0x01 } [(0x0020, 0xFF), (0x0021, 0x02), (0x0300, 0x33)] [] =
      some (⟨0x33, 0x00, 0x01, 0xFF, 0x0202, 0x03⟩, true, []) := by decide

/-- Vector ID18 (R132). -/
theorem test_cpx_ID18 :
    stepOn [0xE0, 0x05] { start with x := 0x05 } [] [] =
      some (⟨0x00, 0x05, 0x00, 0xFF, 0x0202, 0x03⟩, true, []) := by decide

/-- Vector ID19 (R132). -/
theorem test_cpx_ID19 :
    stepOn [0xEC, 0x00, 0x30] { start with x := 0x80 } [(0x3000, 0x90)] [] =
      some (⟨0x00, 0x80, 0x00, 0xFF, 0x0203, 0x80⟩, true, []) := by decide

/-- Vector ID20 (R133). -/
theorem test_cpy_ID20 :
    stepOn [0xC0, 0x80] { start with y := 0x90 } [] [] =
      some (⟨0x00, 0x00, 0x90, 0xFF, 0x0202, 0x81⟩, true, []) := by decide

/-- Vector ID21 (R133). -/
theorem test_cpy_ID21 :
    stepOn [0xC4, 0x10] { start with y := 0x01, p := 0x03 } [(0x0010, 0x02)] [] =
      some (⟨0x00, 0x00, 0x01, 0xFF, 0x0202, 0x00⟩, true, []) := by decide

/-- Vector LA2 (R140). -/
theorem test_and_LA2 :
    stepOn [0x29, 0xF0] { start with a := 0xFF, p := 0x02 } [] [] =
      some (⟨0xF0, 0x00, 0x00, 0xFF, 0x0202, 0x02⟩, true, []) := by decide

/-- Vector LA3 (R140). -/
theorem test_and_LA3 :
    stepOn [0x3D, 0x00, 0x03] { start with a := 0x3C, x := 0x01 } [(0x0301, 0x0F)] [] =
      some (⟨0x0C, 0x01, 0x00, 0xFF, 0x0203, 0x00⟩, true, []) := by decide

/-- Vector LA4 (R141). -/
theorem test_ora_LA4 :
    stepOn [0x09, 0x80] { start with a := 0x0F } [] [] =
      some (⟨0x8F, 0x00, 0x00, 0xFF, 0x0202, 0x80⟩, true, []) := by decide

/-- Vector LA7 (R142). -/
theorem test_eor_LA7 :
    stepOn [0x49, 0xFF] { start with a := 0x0F, p := 0x41 } [] [] =
      some (⟨0xF0, 0x00, 0x00, 0xFF, 0x0202, 0xC1⟩, true, []) := by decide

/-- Vector LA8 (R143). -/
theorem test_asl_LA8 :
    stepOn [0x0A] { start with a := 0x81 } [] [] =
      some (⟨0x02, 0x00, 0x00, 0xFF, 0x0201, 0x01⟩, true, []) := by decide

/-- Vector LA10 (R143). -/
theorem test_asl_LA10 :
    stepOn [0x06, 0x10] { start with p := 0x01 } [(0x0010, 0x40)] [0x0010] =
      some (⟨0x00, 0x00, 0x00, 0xFF, 0x0202, 0x80⟩, true, [0x80]) := by decide

/-- Vector LA11 (R144). -/
theorem test_lsr_LA11 :
    stepOn [0x4A] { start with a := 0x01 } [] [] =
      some (⟨0x00, 0x00, 0x00, 0xFF, 0x0201, 0x03⟩, true, []) := by decide

/-- Vector LA12 (R144). -/
theorem test_lsr_LA12 :
    stepOn [0x46, 0x40] { start with p := 0x80 } [(0x0040, 0xFF)] [0x0040] =
      some (⟨0x00, 0x00, 0x00, 0xFF, 0x0202, 0x01⟩, true, [0x7F]) := by decide

/-- Vector LA13 (R145). -/
theorem test_rol_LA13 :
    stepOn [0x2A] { start with a := 0x80, p := 0x01 } [] [] =
      some (⟨0x01, 0x00, 0x00, 0xFF, 0x0201, 0x03⟩, true, []) := by decide

/-- Vector LA15 (R145). -/
theorem test_rol_LA15 :
    stepOn [0x2E, 0x00, 0x03] start [(0x0300, 0x55)] [0x0300] =
      some (⟨0x00, 0x00, 0x00, 0xFF, 0x0203, 0x80⟩, true, [0xAA]) := by decide

/-- Vector LA18 (R146). -/
theorem test_ror_LA18 :
    stepOn [0x6A] { start with a := 0x01, p := 0x01 } [] [] =
      some (⟨0x80, 0x00, 0x00, 0xFF, 0x0201, 0x03⟩, true, []) := by decide

/-- Vector LA20 (R146). -/
theorem test_ror_LA20 :
    stepOn [0x7E, 0x00, 0x03] { start with x := 0x02, p := 0x01 } [(0x0302, 0x00)] [0x0302] =
      some (⟨0x00, 0x02, 0x00, 0xFF, 0x0203, 0x02⟩, true, [0x80]) := by decide

/-- Vector LA23 (R147). -/
theorem test_adc_LA23 :
    stepOn [0x69, 0xFF] { start with a := 0xFF, p := 0x01 } [] [] =
      some (⟨0xFF, 0x00, 0x00, 0xFF, 0x0202, 0xC1⟩, true, []) := by decide

/-- Vector LA25 (R147). -/
theorem test_adc_LA25 :
    stepOn [0x69, 0x01] { start with a := 0x01, p := 0x40 } [] [] =
      some (⟨0x02, 0x00, 0x00, 0xFF, 0x0202, 0x00⟩, true, []) := by decide

/-- Vector LA29 (R148). -/
theorem test_sbc_LA29 :
    stepOn [0xE9, 0x10] { start with a := 0x30, p := 0x01 } [] [] =
      some (⟨0x1F, 0x00, 0x00, 0xFF, 0x0202, 0x00⟩, true, []) := by decide

/-- Vector LA31 (R148). -/
theorem test_sbc_LA31 :
    stepOn [0xE9, 0x00] { start with p := 0x01 } [] [] =
      some (⟨0xFF, 0x00, 0x00, 0xFF, 0x0202, 0xC1⟩, true, []) := by decide

/-- Vector CF5 (R155). -/
theorem test_jmpAbs_CF5 :
    stepOn [0x4C, 0x00, 0x06] start [] [0x01FF, 0x01FE] =
      some (⟨0x00, 0x00, 0x00, 0xFD, 0x0600, 0x00⟩, true, [0x02, 0x02]) := by decide

/-- Vector AM22 (R83). -/
theorem test_jmpInd_AM22 :
    stepOn [0x6C, 0xFF, 0x12] start [(0x1200, 0x80), (0x12FF, 0x00), (0x1300, 0x40)] [0x01FF, 0x01FE] =
      some (⟨0x00, 0x00, 0x00, 0xFD, 0x4000, 0x00⟩, true, [0x02, 0x02]) := by decide

/-- Vector AM23 (R83). -/
theorem test_jmpInd_AM23 :
    stepOn [0x6C, 0xFF, 0xFF] start [(0x0000, 0x43), (0xFFFF, 0x21)] [0x01FF, 0x01FE] =
      some (⟨0x00, 0x00, 0x00, 0xFD, 0x4321, 0x00⟩, true, [0x02, 0x02]) := by decide

/-- Vector CF3 (R157). -/
theorem test_jsr_CF3 :
    stepOn [0x20, 0x34, 0x12] { start with pc := 0xFFFE } [] [0x01FF, 0x01FE] =
      some (⟨0x00, 0x00, 0x00, 0xFD, 0x1234, 0x00⟩, true, [0x00, 0x00]) := by decide

/-- Vector ME1 (R39). -/
theorem test_jsr_ME1 :
    stepOn [0x20, 0x00, 0x30] { start with pc := 0x01FD } [] [0x01FF, 0x01FE] =
      some (⟨0x00, 0x00, 0x00, 0xFD, 0x3000, 0x00⟩, true, [0x01, 0xFF]) := by decide

/-- Vector CF9 (R158). -/
theorem test_rts_CF9 :
    stepOn [0x60] { start with sp := 0xFD } [(0x01FE, 0xFF), (0x01FF, 0xFF)] [] =
      some (⟨0x00, 0x00, 0x00, 0xFF, 0x0000, 0x00⟩, true, []) := by decide

/-- Vector ME6 (R104). -/
theorem test_rts_ME6 :
    stepOn [0x60] start [(0x0100, 0x10), (0x0101, 0x20)] [] =
      some (⟨0x00, 0x00, 0x00, 0x01, 0x2011, 0x00⟩, true, []) := by decide

/-- Vector CF10 (R159). -/
theorem test_rti_CF10 :
    stepOn [0x40] { start with sp := 0xFC, pc := 0x0300 } [(0x01FD, 0xC3), (0x01FE, 0x02), (0x01FF, 0x06)] [] =
      some (⟨0x00, 0x00, 0x00, 0xFF, 0x0603, 0xC3⟩, true, []) := by decide

/-- Vector CF11 (R159). -/
theorem test_rti_CF11 :
    stepOn [0x40] { start with sp := 0xFC } [(0x01FD, 0x30), (0x01FE, 0x00), (0x01FF, 0x10)] [] =
      some (⟨0x00, 0x00, 0x00, 0xFF, 0x1001, 0x30⟩, true, []) := by decide

/-- Vector CF12 (R161). -/
theorem test_bcc_CF12 :
    stepOn [0x90, 0x05] { start with pc := 0x0400 } [] [] =
      some (⟨0x00, 0x00, 0x00, 0xFF, 0x0407, 0x00⟩, true, []) := by decide

/-- Vector CF13 (R161). -/
theorem test_bcc_CF13 :
    stepOn [0x90, 0x05] { start with pc := 0x0400, p := 0x01 } [] [] =
      some (⟨0x00, 0x00, 0x00, 0xFF, 0x0402, 0x01⟩, true, []) := by decide

/-- Vector CF14 (R162). -/
theorem test_bcs_CF14 :
    stepOn [0xB0, 0xFE] { start with pc := 0x0400, p := 0x01 } [] [] =
      some (⟨0x00, 0x00, 0x00, 0xFF, 0x0400, 0x01⟩, true, []) := by decide

/-- Vector CF15 (R162). -/
theorem test_bcs_CF15 :
    stepOn [0xB0, 0x10] start [] [] =
      some (⟨0x00, 0x00, 0x00, 0xFF, 0x0202, 0x00⟩, true, []) := by decide

/-- Vector CF16 (R163). -/
theorem test_beq_CF16 :
    stepOn [0xF0, 0x10] { start with pc := 0x0500, p := 0x02 } [] [] =
      some (⟨0x00, 0x00, 0x00, 0xFF, 0x0512, 0x02⟩, true, []) := by decide

/-- Vector CF17 (R163). -/
theorem test_beq_CF17 :
    stepOn [0xF0, 0x10] { start with pc := 0x0500 } [] [] =
      some (⟨0x00, 0x00, 0x00, 0xFF, 0x0502, 0x00⟩, true, []) := by decide

/-- Vector CF18 (R164). -/
theorem test_bne_CF18 :
    stepOn [0xD0, 0xF8] { start with pc := 0x060A } [] [] =
      some (⟨0x00, 0x00, 0x00, 0xFF, 0x0604, 0x00⟩, true, []) := by decide

/-- Vector CF29 (R160). -/
theorem test_bne_CF29 :
    stepOn [0xD0, 0x10] { start with pc := 0xFFFE } [] [] =
      some (⟨0x00, 0x00, 0x00, 0xFF, 0x0010, 0x00⟩, true, []) := by decide

/-- Vector CF20 (R165). -/
theorem test_bmi_CF20 :
    stepOn [0x30, 0x7F] { start with pc := 0x1000, p := 0x80 } [] [] =
      some (⟨0x00, 0x00, 0x00, 0xFF, 0x1081, 0x80⟩, true, []) := by decide

/-- Vector CF21 (R165). -/
theorem test_bmi_CF21 :
    stepOn [0x30, 0x7F] { start with pc := 0x1000 } [] [] =
      some (⟨0x00, 0x00, 0x00, 0xFF, 0x1002, 0x00⟩, true, []) := by decide

/-- Vector CF22 (R166). -/
theorem test_bpl_CF22 :
    stepOn [0x10, 0x80] { start with pc := 0x1000 } [] [] =
      some (⟨0x00, 0x00, 0x00, 0xFF, 0x0F82, 0x00⟩, true, []) := by decide

/-- Vector CF23 (R166). -/
theorem test_bpl_CF23 :
    stepOn [0x10, 0x80] { start with pc := 0x1000, p := 0x80 } [] [] =
      some (⟨0x00, 0x00, 0x00, 0xFF, 0x1002, 0x80⟩, true, []) := by decide

/-- Vector CF24 (R167). -/
theorem test_bvc_CF24 :
    stepOn [0x50, 0x02] { start with pc := 0x0000 } [] [] =
      some (⟨0x00, 0x00, 0x00, 0xFF, 0x0004, 0x00⟩, true, []) := by decide

/-- Vector CF25 (R167). -/
theorem test_bvc_CF25 :
    stepOn [0x50, 0x02] { start with pc := 0x0000, p := 0x40 } [] [] =
      some (⟨0x00, 0x00, 0x00, 0xFF, 0x0002, 0x40⟩, true, []) := by decide

/-- Vector CF27 (R168). -/
theorem test_bvs_CF27 :
    stepOn [0x70, 0xFC] { start with pc := 0x0000, p := 0x40 } [] [] =
      some (⟨0x00, 0x00, 0x00, 0xFF, 0xFFFE, 0x40⟩, true, []) := by decide

/-- Vector CF28 (R168). -/
theorem test_bvs_CF28 :
    stepOn [0x70, 0xFC] start [] [] =
      some (⟨0x00, 0x00, 0x00, 0xFF, 0x0202, 0x00⟩, true, []) := by decide

/-- Vector FL1 (R175). -/
theorem test_sec_FL1 :
    stepOn [0x38] { start with p := 0x82 } [] [] =
      some (⟨0x00, 0x00, 0x00, 0xFF, 0x0201, 0x83⟩, true, []) := by decide

/-- Vector FL2 (R176). -/
theorem test_clc_FL2 :
    stepOn [0x18] { start with p := 0xC3 } [] [] =
      some (⟨0x00, 0x00, 0x00, 0xFF, 0x0201, 0xC2⟩, true, []) := by decide

/-- Vector FL3 (R177). -/
theorem test_sed_FL3 :
    stepOn [0xF8] start [] [] =
      some (⟨0x00, 0x00, 0x00, 0xFF, 0x0201, 0x08⟩, true, []) := by decide

/-- Vector FL4 (R178). -/
theorem test_cld_FL4 :
    stepOn [0xD8] { start with p := 0x0B } [] [] =
      some (⟨0x00, 0x00, 0x00, 0xFF, 0x0201, 0x03⟩, true, []) := by decide

/-- Vector FL5 (R179). -/
theorem test_sei_FL5 :
    stepOn [0x78] start [] [] =
      some (⟨0x00, 0x00, 0x00, 0xFF, 0x0201, 0x04⟩, true, []) := by decide

/-- Vector FL6 (R180). -/
theorem test_cli_FL6 :
    stepOn [0x58] { start with p := 0x04 } [] [] =
      some (⟨0x00, 0x00, 0x00, 0xFF, 0x0201, 0x00⟩, true, []) := by decide

/-- Vector FL7 (R181). -/
theorem test_clv_FL7 :
    stepOn [0xB8] { start with p := 0x41 } [] [] =
      some (⟨0x00, 0x00, 0x00, 0xFF, 0x0201, 0x01⟩, true, []) := by decide

/-- Vector FL9 (R182). -/
theorem test_nop_FL9 :
    stepOn [0xEA] { start with pc := 0xFFFF, p := 0xFF } [] [] =
      some (⟨0x00, 0x00, 0x00, 0xFF, 0x0000, 0xFF⟩, true, []) := by decide

/-- Vector FL10 (R183). -/
theorem test_brk_FL10 :
    stepOn [0x00] { start with pc := 0x0600, p := 0x03 } [] [0x01FF, 0x01FE, 0x01FD] =
      some (⟨0x00, 0x00, 0x00, 0xFC, 0x0600, 0x07⟩, false, [0x06, 0x02, 0x03]) := by decide

/-- Vector FL12 (R183). -/
theorem test_brk_FL12 :
    stepOn [0x00] { start with sp := 0x01, pc := 0xFFFF, p := 0x34 } [] [0x0101, 0x0100, 0x01FF] =
      some (⟨0x00, 0x00, 0x00, 0xFE, 0xFFFF, 0x34⟩, false, [0x00, 0x01, 0x34]) := by decide

/-- Vector FL13 (R184). -/
theorem test_unrecognized_FL13 :
    stepOn [0xFF] { start with pc := 0x0000 } [] [0x01FF, 0x01FE, 0x01FD] =
      some (⟨0x00, 0x00, 0x00, 0xFC, 0x0000, 0x04⟩, false, [0x00, 0x02, 0x00]) := by decide

/-- Vector FL14 (R184). -/
theorem test_unrecognized_FL14 :
    stepOn [0x48] { start with a := 0x77 } [] [0x01FF, 0x01FE, 0x01FD] =
      some (⟨0x77, 0x00, 0x00, 0xFC, 0x0200, 0x04⟩, false, [0x02, 0x02, 0x00]) := by decide

/-! ### The host's port, the loader and the run -/

/-- Source S10: `FE FF 11 22 33` wraps, and PC is the load address. -/
theorem test_loader_S10 :
    let r := loadFile (some [0xFE, 0xFF, 0x11, 0x22, 0x33]) State.reset
    r.ok = true ∧ r.state.pc = 0xFFFE ∧ r.state.read 0xFFFE = 0x11 ∧ r.state.read 0xFFFF = 0x22 ∧
    r.state.read 0x0000 = 0x33 := by decide

/-- `withFetchWord` places a table word where the next step fetches: LDA immediate 0x80. -/
theorem test_withFetchWord :
    (answered (stepResult (State.reset.withFetchWord 16 0x80A9))).map (readRegisters ·.state) =
      some ⟨0x80, 0x00, 0x00, 0xFF, 0x0002, 0x80⟩ := by decide

/-- A byte written with what an unlisted address reads as leaves no entry. -/
theorem test_memory_stays_canonical :
    ((State.reset.write 0x0010 0x12).write 0x0010 0x00).mem = [] := by decide

/-! ### For each obligation with hypotheses, what meets them -/

/-- A JSR that lies across the top of memory. -/
def straddling : State := placed [0x20, 0x34, 0x12] { start with pc := 0xFFFE } []

/-- An unrecognized byte at 0x0200, away from the stack. -/
def halting : State := placed [0xFF] start []

theorem witness_DecodeInvertsEncode : (Instr.lda (.mem (.indy 0xFF))).wellFormed = true := by decide

theorem witness_EncodeInvertsDecode :
    decode [0x6C, 0xFF, 0x12, 0x60] = .ok (.jmpInd 0x12FF, [0x60]) := by decide

/-- Both clauses at the boundary: exactly as many bytes as the opcode needs, and one fewer. -/
theorem witness_DecodeFailsOnlyWhenTruncated :
    opcodeLength 0xAD ≤ [0x34#8, 0x12#8].length + 1 ∧ [0x34#8].length + 1 < opcodeLength 0xAD := by decide

theorem witness_UnrecognizedBytesAreTheListed :
    (0x02 : Byte) ∈ unrecognizedOpcodes ∧ (0xFF : Byte) ∈ unrecognizedOpcodes ∧
    (0x00 : Byte) ∉ unrecognizedOpcodes := by decide

theorem witness_StepRunsTheDecodedInstruction :
    decode [straddling.read straddling.pc, straddling.read (straddling.pc + 1),
        straddling.read (straddling.pc + 2)] = .ok (.jsr 0x1234, []) := by decide

theorem witness_StepRunsTheEncodedInstruction :
    encode (.jsr 0x1234) = some [0x20, 0x34, 0x12] ∧
    ∀ k b, [(0x20 : Byte), 0x34, 0x12][k]? = some b →
      straddling.read (straddling.pc + BitVec.ofNat 16 k) = b := by
  refine ⟨by decide, fun k b h => ?_⟩
  match k, h with
  | 0, h | 1, h | 2, h => rw [← Option.some.inj h]; decide

theorem witness_HaltsExactlyOnHaltingBytes :
    haltingByte 0x00 = true ∧ haltingByte 0xFF = true ∧ haltingByte 0xEA = false := by decide

theorem witness_HaltedCoreRunsWhatTheHostPlaces :
    (∃ t, step halting = .next t) ∧ stepContinue halting = false ∧
    encode (.jsr 0x1234) = some [0x20, 0x34, 0x12] := ⟨⟨_, rfl⟩, by decide, by decide⟩

theorem witness_HaltRepeatsOnceWhereTheByteStands :
    ∃ t, step halting = .next t ∧ stepContinue halting = false ∧
      t.read halting.pc = halting.read halting.pc := ⟨_, rfl, by decide, by decide⟩

theorem witness_StepKeepsInvariant : straddling.Inv ∧ ∃ t, step straddling = .next t :=
  ⟨by decide, _, rfl⟩

theorem witness_InvariantStatesAreSafe : straddling.Inv := by decide

theorem witness_CanonicalMemoryIsUnique :
    Memory.wf [(0x0000, 0x01), (0xFFFF, 0xFF)] ∧ Memory.wf (straddling.mem) := by decide

theorem witness_FlagsChangeOnlyWhereListed :
    7 ∉ flagsWritten (.and (.imm 0x80)) ∧ 5 ∉ flagsWritten (.adc (.imm 0x80)) ∧ 0 ∉ flagsWritten .brk := by
  decide

theorem witness_RegistersChangeOnlyWhereListed :
    Reg.a ∉ registersWritten (.cmp (.imm 0x80)) ∧ Reg.sp ∉ registersWritten .tsx ∧
    Reg.x ∉ registersWritten .brk := by decide

/-- One address below the three bytes of the halt path, and one above, where SP wraps. -/
theorem witness_MemoryChangesOnlyWhereListed :
    (0x01FE : Addr) ∉ addressesWritten { start with sp := 0x01 } .brk ∧
    (0x0102 : Addr) ∉ addressesWritten { start with sp := 0x01 } .brk ∧
    (0x01FF : Addr) ∈ addressesWritten { start with sp := 0x01 } .brk := by decide

theorem witness_OtherInstructionsGoOn :
    transfersControl (.ora (.mem (.absy 0x1234))) = false ∧ transfersControl .nop = false := by decide

/-- P = 0x0C against the P = 0 of the start state. -/
theorem witness_DecimalAndInterruptFlagsAreInert :
    ∀ k, k < 8 → k ≠ 3 → k ≠ 2 → (0x0C : Byte).getLsbD k = halting.p.getLsbD k := by decide

/-- With SP = 0 the two pushed bytes lie at 0x0100 and 0x01FF. The RTS finds another A and P and another
byte of memory than the JSR left. -/
theorem witness_CallThenReturnComesBack :
    let s := { halting with sp := 0x00 }
    ∃ t, exec (.jsr 0xF000) s = .next t ∧
      let v := { t.write 0xF000 0x60 with a := 0x12, p := 0xC3 }
      v.sp = t.sp ∧ v.read (stackAddr s.sp) = t.read (stackAddr s.sp) ∧
      v.read (stackAddr (s.sp - 1)) = t.read (stackAddr (s.sp - 1)) ∧ v.read 0xF000 ≠ t.read 0xF000 :=
  ⟨_, rfl, by decide⟩

/-- With SP = 1 the three pushed bytes lie at 0x0101, 0x0100 and 0x01FF. The host has written RTI over the
byte at PC, which is R206's case. -/
theorem witness_ReturnAfterHaltRestoresFlags :
    let s := { halting with sp := 0x01, p := 0x34 }
    continueOf .brk = false ∧ continueOf (.unrecognized 0xFF) = false ∧
    ∃ t, exec (.unrecognized 0xFF) s = .next t ∧ exec .brk s = .next t ∧
      let v := hostWrite t t.pc 0x40
      v.sp = t.sp ∧ v.read (stackAddr s.sp) = t.read (stackAddr s.sp) ∧
      v.read (stackAddr (s.sp - 1)) = t.read (stackAddr (s.sp - 1)) ∧
      v.read (stackAddr (s.sp - 2)) = t.read (stackAddr (s.sp - 2)) ∧ v.read v.pc ≠ t.read t.pc :=
  ⟨by decide, by decide, _, rfl, rfl, by decide⟩

theorem witness_IncThenDecRestoresMemory :
    (Instr.inc (.absx 0xFFFF)).wellFormed = true ∧ ∃ t, exec (.inc (.absx 0xFFFF)) halting = .next t :=
  ⟨by decide, _, rfl⟩

/-- An image across the top of memory: its last byte, which no later byte overwrites, and the address
just below its load address. -/
theorem witness_LoaderCopiesTheImage :
    ([(0x11 : Byte), 0x22, 0x33][2]? = some 0x33 ∧
      ∀ j, 2 < j → j < [(0x11 : Byte), 0x22, 0x33].length →
        (0xFFFE : Addr) + BitVec.ofNat 16 j ≠ 0xFFFE + BitVec.ofNat 16 2) ∧
    ∀ k, k < [(0x11 : Byte), 0x22, 0x33].length → (0xFFFD : Addr) ≠ 0xFFFE + BitVec.ofNat 16 k :=
  ⟨⟨rfl, fun j h h' => absurd h' (by simp only [List.length]; omega)⟩, by decide⟩

/-- A step that returns false, before which the host wrote nothing, and the run it ends. -/
theorem witness_RunEndsAtTheFirstFalse_final :
    stepContinue (hostWrites ([].headD []) halting) = false ∧ ∃ t, step halting = .next t ∧
      run 1 [] halting = .final t := ⟨by decide, _, rfl, rfl⟩

/-- A step that returns true, because the host wrote NOP over the halting byte, and the run that is still
running after it. -/
theorem witness_RunEndsAtTheFirstFalse_running :
    let w : List (List (Addr × Byte)) := [[(0x0200, 0xEA)]]
    stepContinue (hostWrites (w.headD []) halting) = true ∧
    ∃ t, step (hostWrites (w.headD []) halting) = .next t ∧ run 1 w halting = .running t :=
  ⟨by decide, _, rfl, rfl⟩

/-- A canonical memory that is not empty, and a run from it that ends and one that does not. -/
theorem witness_HostAndLoaderKeepInvariant :
    halting.Inv ∧ halting.mem ≠ [] ∧ (∃ t, run 1 [] halting = .final t) ∧
    ∃ t, run 1 [] straddling = .running t := ⟨by decide, by decide, ⟨_, rfl⟩, _, rfl⟩

theorem witness_InstancesShareNothing :
    (0 : Nat) ≠ 1 ∧ [straddling, halting][1]? = some halting ∧ ∃ t, step halting = .next t :=
  ⟨by decide, rfl, _, rfl⟩

end Sys2Proof.Tests
end

section
/-! PROOFS. The step as the scope states it (00_scope.md R1, R2, R4, R5): it always completes, it runs
the instruction whose bytes stand at PC, it goes on past one that does not transfer control, and it
keeps the canonical form of memory. -/

namespace Sys2Proof

/-! ### The bytes of an instruction, by the format of its opcode (R50)

The encoder is read by mnemonic and mode, the decoder and the fetch by opcode byte. `Spells` is the
common reading of both: the bytes of an instruction with the entry its opcode has. -/

/-- `bs` is `i` written out in the format of its opcode's entry. -/
inductive Spells : List Byte → Instr → Prop where
  | one {op : Byte} {i : Instr} (h : opcodeEntry op = .one i) : Spells [op] i
  | byte {op : Byte} {make : Byte → Instr} (h : opcodeEntry op = .byte make) (l : Byte) :
      Spells [op, l] (make l)
  | word {op : Byte} {make : Addr → Instr} (h : opcodeEntry op = .word make) (w : Addr) :
      Spells [op, loByte w, hiByte w] (make w)

/-- The entry an opcode has when its instruction takes a memory operand in this mode. -/
def ModeTag.entry (make : MemMode → Instr) : ModeTag → Entry
  | .zp => .byte fun l => make (.zp l)
  | .zpx => .byte fun l => make (.zpx l)
  | .zpy => .byte fun l => make (.zpy l)
  | .abs => .word fun w => make (.abs w)
  | .absx => .word fun w => make (.absx w)
  | .absy => .word fun w => make (.absy w)
  | .indx => .byte fun l => make (.indx l)
  | .indy => .byte fun l => make (.indy l)

/-- Every opcode in a row of R55's second table has the entry that the row's mnemonic and its own mode
give it. -/
inductive RowMatches (make : MemMode → Instr) : List (ModeTag × Byte) → Prop where
  | nil : RowMatches make []
  | cons {t : ModeTag} {op : Byte} {row : List (ModeTag × Byte)} (h : opcodeEntry op = t.entry make)
      (rest : RowMatches make row) : RowMatches make ((t, op) :: row)

theorem RowMatches.entry_of_lookup {make : MemMode → Instr} {row : List (ModeTag × Byte)}
    (hrow : RowMatches make row) {t : ModeTag} {op : Byte} (h : row.lookup t = some op) :
    opcodeEntry op = t.entry make := by
  induction hrow with
  | nil => cases h
  | @cons u op' row hop _ ih =>
    rw [List.lookup_cons] at h
    split at h
    · next heq =>
      cases h
      exact eq_of_beq heq ▸ hop
    · exact ih h

/-- An opcode with the entry of its mode, followed by the operand bytes, spells the instruction. -/
theorem spells_of_entry {make : MemMode → Instr} {op : Byte} (m : MemMode)
    (h : opcodeEntry op = m.tag.entry make) : Spells (op :: m.operandBytes) (make m) := by
  cases m with
  | zp l | zpx l | zpy l | indx l | indy l => exact .byte h l
  | abs w | absx w | absy w => exact .word h w

theorem encodeMem_spells {make : MemMode → Instr} {row : List (ModeTag × Byte)}
    (hrow : RowMatches make row) {m : MemMode} {bs : List Byte} (h : encodeMem row m = some bs) :
    Spells bs (make m) := by
  obtain ⟨op, hop, rfl⟩ := Option.map_eq_some_iff.1 h
  exact spells_of_entry m (hrow.entry_of_lookup hop)

theorem encodeSrc_spells {make : Src → Instr} {imm : Byte} {row : List (ModeTag × Byte)}
    (himm : opcodeEntry imm = .byte fun l => make (.imm l))
    (hrow : RowMatches (fun m => make (.mem m)) row) {o : Src} {bs : List Byte}
    (h : encodeSrc imm row o = some bs) : Spells bs (make o) := by
  cases o with
  | imm l => cases h; exact .byte himm l
  | mem m => exact encodeMem_spells hrow h

theorem encodeTarget_spells {make : Target → Instr} {acc : Byte} {row : List (ModeTag × Byte)}
    (hacc : opcodeEntry acc = .one (make .acc))
    (hrow : RowMatches (fun m => make (.mem m)) row) {t : Target} {bs : List Byte}
    (h : encodeTarget acc row t = some bs) : Spells bs (make t) := by
  cases t with
  | acc => cases h; exact .one hacc
  | mem m => exact encodeMem_spells hrow h

/-- The entry is that of `op` as an unrecognized opcode. -/
def Entry.isUnrecognized (op : Byte) : Entry → Bool
  | .one (.unrecognized op') => op' == op
  | _ => false

theorem Entry.eq_of_isUnrecognized {op : Byte} {e : Entry} (h : e.isUnrecognized op = true) :
    e = .one (.unrecognized op) := by
  unfold Entry.isUnrecognized at h
  split at h
  · rw [eq_of_beq h]
  · cases h

/-- Every byte in the list of R56 has the entry of an unrecognized opcode. -/
theorem opcodeEntry_of_mem_unrecognizedOpcodes {op : Byte} (h : op ∈ unrecognizedOpcodes) :
    opcodeEntry op = .one (.unrecognized op) := by
  have hlist : unrecognizedOpcodes.all (fun op => (opcodeEntry op).isUnrecognized op) = true := by
    decide
  exact Entry.eq_of_isUnrecognized (List.all_eq_true.1 hlist op h)

/-- The encoder and the opcode map agree: the bytes the encoder gives spell the instruction. -/
theorem encode_spells {i : Instr} {bs : List Byte} (h : encode i = some bs) : Spells bs i := by
  cases i with
  | lda o | ldx o | ldy o | cmp o | cpx o | cpy o | and o | ora o | eor o | adc o | sbc o =>
    exact encodeSrc_spells rfl (by repeat' constructor) h
  | asl t | lsr t | rol t | ror t => exact encodeTarget_spells rfl (by repeat' constructor) h
  | sta m | stx m | sty m | inc m | dec m => exact encodeMem_spells (by repeat' constructor) h
  | jmpAbs w | jmpInd w | jsr w => cases h; exact .word rfl w
  | bcc d | bcs d | beq d | bne d | bmi d | bpl d | bvc d | bvs d => cases h; exact .byte rfl d
  | tax | txa | tay | tya | tsx | txs | inx | iny | dex | dey | rts | rti
  | sec | clc | sed | cld | sei | cli | clv | nop | brk => cases h; exact .one rfl
  | unrecognized op =>
    obtain ⟨hop, hbs⟩ := Option.ite_none_right_eq_some.1 h
    cases hbs
    exact .one (opcodeEntry_of_mem_unrecognizedOpcodes (List.contains_iff_mem.1 hop))

namespace Machine

/-! ### The fetch (R4, R50 to R52) -/

/-- The fetch reads what the decoder reads from the three bytes at PC. -/
theorem fetch_of_decode {s : State} {i : Instr} {rest : List Byte}
    (h : decode [s.read s.pc, s.read (s.pc + 1), s.read (s.pc + 2)] = .ok (i, rest)) :
    fetch s = i := by
  cases hop : opcodeEntry (s.read s.pc) with
  | one j =>
    rw [decode_one hop] at h
    cases h
    exact fetch_one hop
  | byte make =>
    rw [decode_byte hop] at h
    cases h
    exact fetch_byte hop
  | word make =>
    rw [decode_word hop] at h
    cases h
    exact fetch_word hop

/-- Bytes that spell an instruction and stand in memory at PC, over addresses that wrap, are fetched as
that instruction. -/
theorem fetch_of_spells {s : State} {i : Instr} {bs : List Byte} (h : Spells bs i)
    (hmem : ∀ k b, bs[k]? = some b → s.read (s.pc + BitVec.ofNat 16 k) = b) : fetch s = i := by
  have hpc {op : Byte} (hop : bs[0]? = some op) : s.read s.pc = op := by
    simpa using hmem 0 op hop
  cases h with
  | one h => exact fetch_one (hpc rfl ▸ h)
  | @byte op make h l =>
    rw [fetch_byte (hpc rfl ▸ h)]
    exact congrArg make (hmem 1 l rfl)
  | @word op make h w =>
    have hl : s.read (s.pc + 1) = loByte w := hmem 1 _ rfl
    have hh : s.read (s.pc + 2) = hiByte w := hmem 2 _ rfl
    rw [fetch_word (hpc rfl ▸ h), hl, hh, word_hiByte_loByte]

/-- A step whose fetched instruction is known. -/
theorem step_of_fetch {s : State} {i : Instr} (h : fetch s = i) :
    step s = exec i s ∧ stepContinue s = continueOf i := by
  rw [step_eq, stepContinue_eq, h]
  exact ⟨rfl, rfl⟩

/-! ### Every instruction completes (R2) -/

/-- Each arm of the dispatch answers a next state. -/
theorem exec_total (i : Instr) (s : State) : ∃ t, exec i s = .next t := by
  cases i <;> exact ⟨_, rfl⟩

theorem step_total (s : State) : ∃ t, step s = .next t := exec_total (fetch s) s

/-! ### The canonical form of memory is kept -/

theorem branch_wf {c : State} (h : c.mem.wf) (cond : Bool) (d : Byte) :
    (branch cond d c).mem.wf := by
  rw [branch_eq]
  exact h

theorem modifyTarget_wf {c : State} (h : c.mem.wf) (prim : Byte → Byte → Byte × Byte) (t : Target) :
    (modifyTarget prim t c).mem.wf := by
  cases t with
  | acc => exact (modifyReg_mem prim .a c).symm ▸ h
  | mem m => exact modifyMem_wf h prim m

/-- Every instruction keeps the canonical form: it stores nothing, or stores by `Memory.write` alone. -/
theorem exec_keeps_inv {i : Instr} {s t : State} (h : s.Inv) (he : exec i s = .next t) : t.Inv := by
  cases i with
  | lda o | ldx o | ldy o | cmp o | cpx o | cpy o | and o | ora o | eor o | adc o | sbc o =>
    cases o <;> cases he <;> exact h
  | sta m | stx m | sty m => cases he; exact Memory.wf_write h _ _
  | inc m | dec m => cases he; exact modifyMem_wf h _ m
  | asl t | lsr t | rol t | ror t => cases he; exact modifyTarget_wf h _ t
  | jmpAbs w | jmpInd w | jsr w => cases he; exact pushWord_wf h _
  | brk | unrecognized op => cases he; exact haltPath_wf h
  | bcc d | bcs d | beq d | bne d | bmi d | bpl d | bvc d | bvs d =>
    cases he; exact branch_wf h _ d
  | tax | txa | tay | tya | tsx | txs | inx | iny | dex | dey | rts | rti
  | sec | clc | sed | cld | sei | cli | clv | nop => cases he; exact h

theorem step_keeps_inv {s t : State} (h : s.Inv) (hst : Steps s t) : t.Inv := exec_keeps_inv h hst

theorem hostWrite_keeps_inv {s : State} (h : s.Inv) (a : Addr) (v : Byte) : (hostWrite s a v).Inv :=
  State.wf_write h a v

theorem loadImage_keeps_inv {s : State} (h : s.Inv) (image : Image) : (loadImage image s).Inv :=
  State.wf_writeBytes image.bytes h image.base

theorem loadFile_keeps_inv {s : State} (h : s.Inv) (file : Option (List Byte)) :
    (loadFile file s).state.Inv := by
  unfold loadFile
  split
  · exact loadImage_keeps_inv h _
  · exact h

/-- Whatever is reached from a canonical state is canonical. -/
theorem Reaches.inv {s t : State} (h : s.Inv) (hr : Reaches s t) : t.Inv := by
  induction hr with
  | here => exact h
  | next _ hst ih => exact step_keeps_inv ih hst
  | write a v _ ih => exact hostWrite_keeps_inv ih a v
  | load file _ ih => exact loadFile_keeps_inv ih file

end Machine

open Machine Claims

/-- Settles O7: the encoder's bytes have the format of their opcode's entry, which is what the fetch
reads. -/
theorem stepRunsTheEncodedInstruction : Obligations.StepRunsTheEncodedInstruction :=
  fun _ _ _ henc hmem => step_of_fetch (fetch_of_spells (encode_spells henc) hmem)

/-- Settles O8: every arm of the dispatch answers a next state. -/
theorem stepIsTotal : Obligations.StepIsTotal := fun s =>
  let ⟨t, ht⟩ := step_total s
  ⟨t, ht, stepResult_of_step ht⟩

/-- Settles O14, by induction on how the state is reached. -/
theorem invariantStatesAreSafe : Obligations.InvariantStatesAreSafe :=
  fun _ h t hr => ⟨hr.inv h, step_total t⟩

/-- Settles O50, by cases on the instruction; where the length depends on the operand, on its form. -/
theorem otherInstructionsGoOn : Obligations.OtherInstructionsGoOn := by
  intro i s h
  cases i with
  | lda o | ldx o | ldy o | cmp o | cpx o | cpy o | and o | ora o | eor o | adc o | sbc o =>
    cases o <;> exact ⟨_, rfl, rfl⟩
  | asl t | lsr t | rol t | ror t => cases t <;> exact ⟨_, rfl, rfl⟩
  | sta m | stx m | sty m | inc m | dec m => exact ⟨_, rfl, rfl⟩
  | tax | txa | tay | tya | tsx | txs | inx | iny | dex | dey
  | sec | clc | sed | cld | sei | cli | clv | nop => exact ⟨_, rfl, rfl⟩
  | jmpAbs _ | jmpInd _ | jsr _ | rts | rti | brk | unrecognized _
  | bcc _ | bcs _ | beq _ | bne _ | bmi _ | bpl _ | bvc _ | bvs _ => cases h

/-- Settles O6: the fetch reads what the decoder reads from the three bytes at PC. -/
theorem stepRunsTheDecodedInstruction : Obligations.StepRunsTheDecodedInstruction :=
  fun _ _ _ hdec => step_of_fetch (fetch_of_decode hdec)

end Sys2Proof
end

section
/-! PROOFS. The state as 10_state.md gives it: the canonical form of memory, reset, the host and the
instances beside the core, the core after a halt, and what an instruction changes of P and of the byte
registers. -/

namespace Sys2Proof
namespace Machine

/-! ### Canonical memories with equal reads are equal data (R17, R36) -/

/-- In a canonical memory the listed entries are the addresses of memory that read as something else than
an unlisted one, with what they read as. -/
theorem Memory.mem_iff_readNat {m : Memory} (h : m.wf) {c : Host.Cell} :
    c ∈ m ↔ c.1 < Config.memorySize ∧ c.2 ≠ Memory.unlisted ∧ Memory.readNat m c.1 = c.2 := by
  refine ⟨fun hc => ⟨(h.2 c hc).1, (h.2 c hc).2, readNat_of_mem h hc⟩, fun ⟨_, hne, hread⟩ => ?_⟩
  by_contra hc
  refine hne (hread.symm.trans (readNat_of_not_mem fun d hd hdc => hc ?_))
  have hdc' : d = c := Prod.ext hdc ((readNat_of_mem h hd).symm.trans (hdc ▸ hread))
  exact hdc' ▸ hd

theorem Memory.readNat_eq_read (m : Memory) {a : Nat} (ha : a < Config.memorySize) :
    Memory.readNat m a = m.read (BitVec.ofNat 16 a) := by
  rw [Memory.read, BitVec.toNat_ofNat, Nat.mod_eq_of_lt (show a < 2 ^ 16 from ha)]

theorem Memory.eq_of_read_eq {m m' : Memory} (h : m.wf) (h' : m'.wf)
    (hread : ∀ a, m.read a = m'.read a) : m = m' := by
  have : Std.Irrefl fun c d : Host.Cell => c.1 < d.1 := ⟨fun c => Nat.lt_irrefl c.1⟩
  have : Std.Antisymm fun c d : Host.Cell => c.1 < d.1 :=
    ⟨fun _ _ hlt hgt => absurd hgt (Nat.lt_asymm hlt)⟩
  refine h.1.eq_of_mem_iff h'.1 fun c => ?_
  rw [mem_iff_readNat h, mem_iff_readNat h']
  refine and_congr_right fun hc => ?_
  rw [readNat_eq_read m hc, readNat_eq_read m' hc, hread]

/-! ### The core after a halt (R20, R228) -/

/-- An instruction that does not continue takes the halt path (R185). -/
theorem exec_eq_haltPath {i : Instr} (h : continueOf i = false) (s : State) :
    exec i s = .next (haltPath s) := by
  cases i with
  | brk | unrecognized op => rfl
  | _ => cases h

theorem haltPath_pc (c : State) : (haltPath c).pc = c.pc := by rw [haltPath_eq]

theorem haltPath_p (c : State) : (haltPath c).p = setFlag .i c.p := by rw [haltPath_eq]

theorem State.writeBytes_pc (bs : List Byte) (a : Addr) (c : State) :
    (c.writeBytes a bs).pc = c.pc := by rw [State.writeBytes_eq]

theorem addr_add_ne (a : Addr) {j k : Nat} (hkj : k < j) (hj : j < Config.memorySize) :
    a + BitVec.ofNat 16 j ≠ a + BitVec.ofNat 16 k := by
  intro e
  have hmod : j % 65536 = k % 65536 := by
    simpa using congrArg BitVec.toNat ((BitVec.add_right_inj a).1 e)
  simp only [Config.memorySize] at hj
  omega

/-- Bytes that fit in memory read back from where they were stored. -/
theorem State.read_writeBytes_of_fits {bs : List Byte} (hfit : bs.length ≤ Config.memorySize)
    (a : Addr) (c : State) {k : Nat} {b : Byte} (hb : bs[k]? = some b) :
    (c.writeBytes a bs).read (a + BitVec.ofNat 16 k) = b :=
  read_writeBytes_at bs a c k b hb fun _ hkj hj => addr_add_ne a hkj (Nat.lt_of_lt_of_le hj hfit)

end Machine

theorem Spells.length_le {bs : List Byte} {i : Instr} (h : Spells bs i) : bs.length ≤ 3 := by
  cases h <;> simp

namespace Machine

/-- An instruction written at PC is the one fetched next. -/
theorem fetch_writeBytes {i : Instr} {bs : List Byte} (h : Spells bs i) (s : State) :
    fetch (s.writeBytes s.pc bs) = i :=
  fetch_of_spells h fun k b hb => by
    rw [State.writeBytes_pc]
    exact State.read_writeBytes_of_fits (h.length_le.trans (by decide)) s.pc s hb

end Machine

open Machine Claims

/-- Settles O12: every instruction keeps the canonical form, the fetched one among them. -/
theorem stepKeepsInvariant : Obligations.StepKeepsInvariant := fun _ _ h hst => step_keeps_inv h hst

/-- Settles O18: a canonical memory lists what its addresses read as, in rising order. -/
theorem canonicalMemoryIsUnique : Obligations.CanonicalMemoryIsUnique :=
  fun _ _ h h' hread => Memory.eq_of_read_eq h h' hread

/-- Settles O9: the halt path leaves PC, and the encoded bytes placed there are fetched. -/
theorem haltedCoreRunsWhatTheHostPlaces : Obligations.HaltedCoreRunsWhatTheHostPlaces := by
  intro s t i bs hst hcont henc
  have ht : t = haltPath s := by
    rw [step_eq, exec_eq_haltPath hcont] at hst
    cases hst
    rfl
  exact ⟨ht ▸ haltPath_pc s, step_of_fetch (fetch_writeBytes (encode_spells henc) t)⟩

/-- Settles O13: after reset no entry is listed. -/
theorem resetMeetsInvariant : Obligations.ResetMeetsInvariant := Memory.wf_nil

/-- Settles O15: the registers by definition, memory because nothing is listed. -/
theorem resetState : Obligations.ResetState :=
  ⟨rfl, rfl, rfl, rfl, rfl, rfl, Memory.read_nil⟩

/-- Settles O57, by the law of a read after a write. -/
theorem hostWritesMemoryOnly : Obligations.HostWritesMemoryOnly := fun s a v =>
  ⟨⟨(State.read_write s a a v).trans (if_pos rfl),
    fun b hb => (State.read_write s a b v).trans (if_neg hb)⟩, rfl, rfl⟩

/-- Settles O59: `List.modify` changes the entry at its index alone. -/
theorem instancesShareNothing : Obligations.InstancesShareNothing := by
  intro k instances
  refine ⟨fun j hj => ?_, fun s t hs hst => ?_⟩
  · exact List.getElem?_modify_ne _ _ hj.symm
  · simp [stepInstance, hs, hst]

end Sys2Proof
end

section
/-! PROOFS. What an instruction changes of P and of the byte registers (the matrix of 10_state.md R16, its
register access summary and R24), and that none consults D and I (R16, R18). -/

namespace Sys2Proof
namespace Machine

/-! ### Two values of P that agree outside some bits -/

/-- `q` is `p` outside the listed bits, which are numbered as R15 numbers them. -/
def AgreeOff (bits : List Nat) (p q : Byte) : Prop :=
  ∀ k, k < 8 → k ∉ bits → q.getLsbD k = p.getLsbD k

namespace AgreeOff
variable {bits : List Nat} {p q : Byte}

theorem refl (bits : List Nat) (p : Byte) : AgreeOff bits p p := fun _ _ _ => rfl

/-- A flag outside the bits reads the same. -/
theorem getFlag_eq (h : AgreeOff bits p q) {f : Flag} (hf : f.bit ∉ bits) :
    getFlag f q = getFlag f p := by
  have hbit : f.bit < 8 := by cases f <;> decide
  rw [Machine.getFlag_eq, Machine.getFlag_eq, h _ hbit hf]

/-- Writing one of the bits in the second value alone. -/
theorem putFlag_right (h : AgreeOff bits p q) {f : Flag} (hf : f.bit ∈ bits) (b : Bool) :
    AgreeOff bits p (putFlag f b q) := fun k hk hne => by
  rw [putFlag_getLsbD f b q k hk, if_neg (ne_of_mem_of_not_mem hf hne).symm, h k hk hne]

theorem setNZ_right (h : AgreeOff bits p q) (hn : 7 ∈ bits) (hz : 1 ∈ bits) (v : Byte) :
    AgreeOff bits p (setNZ v q) :=
  (h.putFlag_right (f := .z) hz _).putFlag_right (f := .n) hn _

/-- Writing the same flag in both values, whichever it is. -/
theorem putFlag_both (h : AgreeOff bits p q) (f : Flag) (b : Bool) :
    AgreeOff bits (putFlag f b p) (putFlag f b q) := fun k hk hne => by
  rw [putFlag_getLsbD f b q k hk, putFlag_getLsbD f b p k hk, h k hk hne]

theorem setNZ_both (h : AgreeOff bits p q) (v : Byte) : AgreeOff bits (setNZ v p) (setNZ v q) :=
  (h.putFlag_both .z _).putFlag_both .n _

theorem compare_both (h : AgreeOff bits p q) (a b : Byte) :
    AgreeOff bits (compare a b p) (compare a b q) := by
  intro k hk hne
  rw [compare_getLsbD a b q k hk, compare_getLsbD a b p k hk, h k hk hne]

end AgreeOff

/-! ### The bits of P that a computation writes (R90 to R102) -/

theorem putFlag_agreeOff (f : Flag) (b : Bool) (p : Byte) : AgreeOff [f.bit] p (putFlag f b p) :=
  (AgreeOff.refl _ p).putFlag_right (List.mem_singleton_self _) b

theorem setNZ_agreeOff (v p : Byte) : AgreeOff [7, 1] p (setNZ v p) :=
  (AgreeOff.refl _ p).setNZ_right (by decide) (by decide) v

theorem compare_agreeOff (a b p : Byte) : AgreeOff [7, 1, 0] p (compare a b p) := by
  intro k hk hne
  obtain ⟨h7, h1, h0⟩ : k ≠ 7 ∧ k ≠ 1 ∧ k ≠ 0 := by simpa using hne
  rw [compare_getLsbD a b p k hk, if_neg h7, if_neg h1, if_neg h0]

/-- Of all eight bits nothing is said: the row of RTI (R159). -/
theorem agreeOff_all (p q : Byte) : AgreeOff [7, 6, 5, 4, 3, 2, 1, 0] p q := by
  have hall : ∀ k, k < 8 → k ∈ [7, 6, 5, 4, 3, 2, 1, 0] := by decide
  exact fun k hk hne => absurd (hall k hk) hne

/-- C, then N and Z: the flags of a shift, and of a rotate (R97 to R100). -/
theorem setNZ_carry_agreeOff (v : Byte) (b : Bool) (p : Byte) :
    AgreeOff [7, 1, 0] p (setNZ v (putFlag .c b p)) :=
  ((AgreeOff.refl _ p).putFlag_right (f := .c) (by decide) b).setNZ_right (by decide) (by decide) v

theorem shiftLeft_agreeOff (v p : Byte) : AgreeOff [7, 1, 0] p (shiftLeft v p).2 :=
  setNZ_carry_agreeOff _ _ p

theorem shiftRight_agreeOff (v p : Byte) : AgreeOff [7, 1, 0] p (shiftRight v p).2 :=
  setNZ_carry_agreeOff _ _ p

/-- The carry that a rotate inserts is not seen by its flags (R99, R100). -/
theorem rotateLeft_agreeOff (v p : Byte) : AgreeOff [7, 1, 0] p (rotateLeft v p).2 :=
  shiftLeft_agreeOff v p

theorem rotateRight_agreeOff (v p : Byte) : AgreeOff [7, 1, 0] p (rotateRight v p).2 :=
  shiftRight_agreeOff v p

/-- V and C, then N and Z: the flags of an addition or subtraction (R95, R96). -/
theorem setNZ_carry_overflow_agreeOff (v : Byte) (b b' : Bool) (p : Byte) :
    AgreeOff [7, 6, 1, 0] p (setNZ v (putFlag .c b (putFlag .v b' p))) :=
  (((AgreeOff.refl _ p).putFlag_right (f := .v) (by decide) b').putFlag_right (f := .c) (by decide)
    b).setNZ_right (by decide) (by decide) v

/-- What a primitive writes of P, a shift or rotate by it writes, on A or on a memory cell. -/
theorem modifyTarget_agreeOff {prim : Byte → Byte → Byte × Byte} {bits : List Nat}
    (h : ∀ v p, AgreeOff bits p (prim v p).2) (t : Target) (c : State) :
    AgreeOff bits c.p (modifyTarget prim t c).p := by
  cases t with
  | acc => exact h _ _
  | mem m => exact h _ _

/-- Every instruction agrees with the matrix of R16. -/
theorem exec_agreeOff (i : Instr) (s : State) :
    ∃ t, exec i s = .next t ∧ AgreeOff (Claims.flagsWritten i) s.p t.p := by
  cases i with
  | lda o | ldx o | ldy o | ora o | eor o => cases o <;> exact ⟨_, rfl, setNZ_agreeOff _ _⟩
  | tax | txa | tay | tya | tsx | inx | iny | dex | dey => exact ⟨_, rfl, setNZ_agreeOff _ _⟩
  | inc m | dec m => exact ⟨_, rfl, setNZ_agreeOff _ _⟩
  | cmp o | cpx o | cpy o => cases o <;> exact ⟨_, rfl, compare_agreeOff _ _ _⟩
  | asl t => exact ⟨_, rfl, modifyTarget_agreeOff shiftLeft_agreeOff t s⟩
  | lsr t => exact ⟨_, rfl, modifyTarget_agreeOff shiftRight_agreeOff t s⟩
  | rol t => exact ⟨_, rfl, modifyTarget_agreeOff rotateLeft_agreeOff t s⟩
  | ror t => exact ⟨_, rfl, modifyTarget_agreeOff rotateRight_agreeOff t s⟩
  | adc o | sbc o => cases o <;> exact ⟨_, rfl, setNZ_carry_overflow_agreeOff _ _ _ _⟩
  | sec | clc => exact ⟨_, rfl, putFlag_agreeOff .c _ _⟩
  | sed | cld => exact ⟨_, rfl, putFlag_agreeOff .d _ _⟩
  | sei | cli => exact ⟨_, rfl, putFlag_agreeOff .i _ _⟩
  | clv => exact ⟨_, rfl, putFlag_agreeOff .v _ _⟩
  | brk | unrecognized op =>
    exact ⟨_, congrArg Host.Outcome.next (haltPath_eq s), putFlag_agreeOff .i true _⟩
  | rti => exact ⟨_, rfl, agreeOff_all _ _⟩
  | bcc d | bcs d | beq d | bne d | bmi d | bpl d | bvc d | bvs d =>
    exact ⟨_, congrArg Host.Outcome.next (branch_eq _ d s), .refl _ _⟩
  | and o => cases o <;> exact ⟨_, rfl, .refl _ _⟩
  | jmpAbs w | jmpInd w | jsr w =>
    exact ⟨_, congrArg Host.Outcome.next (call_eq _ s), .refl _ _⟩
  | sta m | stx m | sty m | txs | nop | rts => exact ⟨_, rfl, .refl _ _⟩

/-! ### The byte registers an instruction writes (R24) -/

/-- A register that is not the one written keeps its value, whatever becomes of PC, P and memory. -/
theorem reg_of_setReg (s : State) (r : Reg) (v : Byte) (pc : Addr) (p : Byte) (mem : Memory) {q : Reg}
    (hq : q ∉ [r]) :
    State.reg { s.setReg r v with pc := pc, p := p, mem := mem } q = s.reg q := by
  have hrest : State.reg { s.setReg r v with pc := pc, p := p, mem := mem } q = (s.setReg r v).reg q := by
    cases q <;> rfl
  rw [hrest, State.reg_setReg, if_neg (List.ne_of_not_mem_cons hq)]

/-- No register is written. -/
theorem reg_of_rest (s : State) (pc : Addr) (p : Byte) (mem : Memory) (q : Reg) :
    State.reg { s with pc := pc, p := p, mem := mem } q = s.reg q := by cases q <;> rfl

theorem exec_reg (i : Instr) (s : State) :
    ∃ t, exec i s = .next t ∧ ∀ q, q ∉ Claims.registersWritten i → t.reg q = s.reg q := by
  cases i with
  | lda o | and o | ora o | eor o | adc o | sbc o =>
    cases o <;> exact ⟨_, rfl, fun _ => reg_of_setReg s .a _ _ _ _⟩
  | ldx o => cases o <;> exact ⟨_, rfl, fun _ => reg_of_setReg s .x _ _ _ _⟩
  | ldy o => cases o <;> exact ⟨_, rfl, fun _ => reg_of_setReg s .y _ _ _ _⟩
  | cmp o | cpx o | cpy o => cases o <;> exact ⟨_, rfl, fun q _ => reg_of_rest s _ _ _ q⟩
  | asl t | lsr t | rol t | ror t =>
    cases t with
    | acc => exact ⟨_, rfl, fun _ => reg_of_setReg s .a _ _ _ _⟩
    | mem m => exact ⟨_, rfl, fun q _ => reg_of_rest s _ _ _ q⟩
  | sta m | stx m | sty m | inc m | dec m => exact ⟨_, rfl, fun q _ => reg_of_rest s _ _ _ q⟩
  | txa | tya => exact ⟨_, rfl, fun _ => reg_of_setReg s .a _ _ _ _⟩
  | tax | tsx | inx | dex => exact ⟨_, rfl, fun _ => reg_of_setReg s .x _ _ _ _⟩
  | tay | iny | dey => exact ⟨_, rfl, fun _ => reg_of_setReg s .y _ _ _ _⟩
  | txs | rts | rti => exact ⟨_, rfl, fun _ => reg_of_setReg s .sp _ _ _ _⟩
  | jmpAbs w | jmpInd w | jsr w =>
    exact ⟨_, congrArg Host.Outcome.next (call_eq _ s), fun _ =>
      reg_of_setReg s .sp (s.sp - 1 - 1) _ _ _⟩
  | brk | unrecognized op =>
    exact ⟨_, congrArg Host.Outcome.next (haltPath_eq s), fun _ =>
      reg_of_setReg s .sp (s.sp - 1 - 1 - 1) _ _ _⟩
  | bcc d | bcs d | beq d | bne d | bmi d | bpl d | bvc d | bvs d =>
    exact ⟨_, congrArg Host.Outcome.next (branch_eq _ d s), fun q _ => reg_of_rest s _ _ _ q⟩
  | sec | clc | sed | cld | sei | cli | clv | nop => exact ⟨_, rfl, fun q _ => reg_of_rest s _ _ _ q⟩

/-! ### D and I are not consulted (R16, R18; the spec's decision D19, log entry 19) -/

theorem agreeOff_di_iff {p q : Byte} :
    AgreeOff [3, 2] p q ↔ ∀ k, k < 8 → k ≠ 3 → k ≠ 2 → q.getLsbD k = p.getLsbD k := by
  simp [AgreeOff]

/-- `s'` is `s` but for D and I. -/
def EqButDI (s s' : State) : Prop := ∃ q, s' = { s with p := q } ∧ AgreeOff [3, 2] s.p q

/-- Neither the result of the primitive nor the rest of its flags depends on D and I. -/
def Inert (prim : Byte → Byte → Byte × Byte) : Prop :=
  ∀ v {p q}, AgreeOff [3, 2] p q →
    (prim v q).1 = (prim v p).1 ∧ AgreeOff [3, 2] (prim v p).2 (prim v q).2

theorem carryIn_congr {p q : Byte} (h : AgreeOff [3, 2] p q) : carryIn q = carryIn p := by
  rw [carryIn, carryIn, h.getFlag_eq (by decide)]

theorem increment_inert : Inert increment := fun _ _ _ h => ⟨rfl, h.setNZ_both _⟩

theorem decrement_inert : Inert decrement := fun _ _ _ h => ⟨rfl, h.setNZ_both _⟩

theorem shiftLeft_inert : Inert shiftLeft := fun _ _ _ h => ⟨rfl, (h.putFlag_both .c _).setNZ_both _⟩

theorem shiftRight_inert : Inert shiftRight := fun _ _ _ h => ⟨rfl, (h.putFlag_both .c _).setNZ_both _⟩

theorem rotateLeft_inert : Inert rotateLeft := fun v p q h =>
  ⟨by simp only [rotateLeft, shiftLeft, carryIn_congr h], (shiftLeft_inert v h).2⟩

theorem rotateRight_inert : Inert rotateRight := fun v p q h =>
  ⟨by simp only [rotateRight, shiftRight, carryIn_congr h], (shiftRight_inert v h).2⟩

theorem silently_inert (f : Byte → Byte → Byte) (a : Byte) : Inert (silently f a) :=
  fun _ _ _ h => ⟨rfl, h⟩

theorem withNZ_inert (f : Byte → Byte → Byte) (a : Byte) : Inert (withNZ f a) :=
  fun _ _ _ h => ⟨rfl, h.setNZ_both _⟩

theorem add_inert (a : Byte) : Inert (add a) := fun b p q h => by
  rw [add, add, carryIn_congr h]
  exact ⟨rfl, ((h.putFlag_both .v _).putFlag_both .c _).setNZ_both _⟩

theorem sub_inert (a : Byte) : Inert (sub a) := fun b p q h => by
  rw [sub, sub, carryIn_congr h]
  exact ⟨rfl, ((h.putFlag_both .v _).putFlag_both .c _).setNZ_both _⟩

/-- No addressing mode reads P. -/
theorem effectiveAddress_p (s : State) (q : Byte) (m : MemMode) :
    effectiveAddress { s with p := q } m = effectiveAddress s m := by cases m <;> rfl

theorem srcValue_p (s : State) (q : Byte) (o : Src) : srcValue o { s with p := q } = srcValue o s := by
  cases o with
  | imm l => rfl
  | mem m => exact congrArg s.read (effectiveAddress_p s q m)

namespace EqButDI
variable {s s' : State}

/-- The flags that the branches test are neither D nor I (R161 to R168). -/
theorem getFlag_eq (h : EqButDI s s') {f : Flag} (hf : f.bit ∉ [3, 2]) :
    getFlag f s'.p = getFlag f s.p := by
  obtain ⟨q, rfl, hq⟩ := h
  exact hq.getFlag_eq hf

theorem after_loadReg (h : EqButDI s s') (r : Reg) (o : Src) : EqButDI (loadReg r o s) (loadReg r o s') := by
  obtain ⟨q, rfl, hq⟩ := h
  simp only [loadReg, readOperand_eq, srcValue_p]
  cases r <;> exact ⟨_, rfl, hq.setNZ_both _⟩

theorem after_storeReg (h : EqButDI s s') (r : Reg) (m : MemMode) :
    EqButDI (storeReg r m s) (storeReg r m s') := by
  obtain ⟨q, rfl, hq⟩ := h
  simp only [storeReg, resolve_eq, effectiveAddress_p]
  cases r <;> exact ⟨_, rfl, hq⟩

theorem after_transferReg (h : EqButDI s s') (src dst : Reg) :
    EqButDI (transferReg src dst s) (transferReg src dst s') := by
  obtain ⟨q, rfl, hq⟩ := h
  cases src <;> cases dst <;> exact ⟨_, rfl, hq.setNZ_both _⟩

theorem after_compareReg (h : EqButDI s s') (r : Reg) (o : Src) :
    EqButDI (compareReg r o s) (compareReg r o s') := by
  obtain ⟨q, rfl, hq⟩ := h
  simp only [compareReg, readOperand_eq, srcValue_p]
  cases r <;> exact ⟨_, rfl, hq.compare_both _ _⟩

theorem after_accumulate (h : EqButDI s s') {op : Byte → Byte → Byte → Byte × Byte}
    (hop : ∀ a, Inert (op a)) (o : Src) : EqButDI (accumulate op o s) (accumulate op o s') := by
  obtain ⟨q, rfl, hq⟩ := h
  obtain ⟨hval, hflags⟩ := hop s.a (srcValue o s) hq
  simp only [accumulate, readOperand_eq, srcValue_p, State.advance_a, State.advance_p, hval]
  exact ⟨_, rfl, hflags⟩

theorem after_modifyReg (h : EqButDI s s') {prim : Byte → Byte → Byte × Byte} (hprim : Inert prim)
    (r : Reg) : EqButDI (modifyReg prim r s) (modifyReg prim r s') := by
  obtain ⟨q, rfl, hq⟩ := h
  obtain ⟨hval, hflags⟩ := hprim (s.reg r) hq
  have hreg : State.reg { s with p := q } r = s.reg r := reg_of_rest s _ _ _ r
  simp only [modifyReg, hreg, hval]
  cases r <;> exact ⟨_, rfl, hflags⟩

theorem after_modifyMem (h : EqButDI s s') {prim : Byte → Byte → Byte × Byte} (hprim : Inert prim)
    (m : MemMode) : EqButDI (modifyMem prim m s) (modifyMem prim m s') := by
  obtain ⟨q, rfl, hq⟩ := h
  obtain ⟨hval, hflags⟩ := hprim (s.read (effectiveAddress s m)) hq
  have hread : State.read { s with p := q } (effectiveAddress s m) = s.read (effectiveAddress s m) := rfl
  simp only [modifyMem_eq, effectiveAddress_p, hread, hval]
  exact ⟨_, rfl, hflags⟩

theorem after_modifyTarget (h : EqButDI s s') {prim : Byte → Byte → Byte × Byte} (hprim : Inert prim)
    (t : Target) : EqButDI (modifyTarget prim t s) (modifyTarget prim t s') := by
  cases t with
  | acc => exact h.after_modifyReg hprim .a
  | mem m => exact h.after_modifyMem hprim m

theorem after_flagOp (h : EqButDI s s') (f : Flag) (b : Bool) : EqButDI (flagOp f b s) (flagOp f b s') := by
  obtain ⟨q, rfl, hq⟩ := h
  exact ⟨_, rfl, hq.putFlag_both f b⟩

theorem after_branch (h : EqButDI s s') {cond cond' : Bool} (hcond : cond' = cond) (d : Byte) :
    EqButDI (branch cond d s) (branch cond' d s') := by
  obtain ⟨q, rfl, hq⟩ := h
  rw [hcond, branch_eq, branch_eq]
  exact ⟨_, rfl, hq⟩

theorem after_call (h : EqButDI s s') {target target' : Addr} (htarget : target' = target) :
    EqButDI (call target s) (call target' s') := by
  obtain ⟨q, rfl, hq⟩ := h
  rw [htarget, call_eq, call_eq]
  exact ⟨_, rfl, hq⟩

theorem indirectTarget_eq (h : EqButDI s s') (pointer : Addr) :
    indirectTarget pointer s' = indirectTarget pointer s := by
  obtain ⟨q, rfl, -⟩ := h
  rfl

end EqButDI

/-- Every instruction that continues takes states that differ at most in D and I to such states. -/
theorem exec_eqButDI {i : Instr} (hc : continueOf i = true) {s s' : State} (h : EqButDI s s') :
    ∃ t t', exec i s = .next t ∧ exec i s' = .next t' ∧ EqButDI t t' := by
  cases i with
  | lda o | ldx o | ldy o => exact ⟨_, _, rfl, rfl, h.after_loadReg _ o⟩
  | sta m | stx m | sty m => exact ⟨_, _, rfl, rfl, h.after_storeReg _ m⟩
  | tax | txa | tay | tya | tsx => exact ⟨_, _, rfl, rfl, h.after_transferReg _ _⟩
  | cmp o | cpx o | cpy o => exact ⟨_, _, rfl, rfl, h.after_compareReg _ o⟩
  | inc m => exact ⟨_, _, rfl, rfl, h.after_modifyMem increment_inert m⟩
  | dec m => exact ⟨_, _, rfl, rfl, h.after_modifyMem decrement_inert m⟩
  | inx | iny => exact ⟨_, _, rfl, rfl, h.after_modifyReg increment_inert _⟩
  | dex | dey => exact ⟨_, _, rfl, rfl, h.after_modifyReg decrement_inert _⟩
  | asl t => exact ⟨_, _, rfl, rfl, h.after_modifyTarget shiftLeft_inert t⟩
  | lsr t => exact ⟨_, _, rfl, rfl, h.after_modifyTarget shiftRight_inert t⟩
  | rol t => exact ⟨_, _, rfl, rfl, h.after_modifyTarget rotateLeft_inert t⟩
  | ror t => exact ⟨_, _, rfl, rfl, h.after_modifyTarget rotateRight_inert t⟩
  | and o => exact ⟨_, _, rfl, rfl, h.after_accumulate (silently_inert _) o⟩
  | ora o | eor o => exact ⟨_, _, rfl, rfl, h.after_accumulate (withNZ_inert _) o⟩
  | adc o => exact ⟨_, _, rfl, rfl, h.after_accumulate add_inert o⟩
  | sbc o => exact ⟨_, _, rfl, rfl, h.after_accumulate sub_inert o⟩
  | bcs d | beq d | bmi d | bvs d =>
    exact ⟨_, _, rfl, rfl, h.after_branch (h.getFlag_eq (by decide)) d⟩
  | bcc d | bne d | bpl d | bvc d =>
    exact ⟨_, _, rfl, rfl, h.after_branch (congrArg not (h.getFlag_eq (by decide))) d⟩
  | sec | clc | sed | cld | sei | cli | clv => exact ⟨_, _, rfl, rfl, h.after_flagOp _ _⟩
  | jmpAbs w | jsr w => exact ⟨_, _, rfl, rfl, h.after_call rfl⟩
  | jmpInd w => exact ⟨_, _, rfl, rfl, h.after_call (h.indirectTarget_eq w)⟩
  | txs | nop | rts =>
    obtain ⟨q, rfl, hq⟩ := h
    exact ⟨_, _, rfl, rfl, q, rfl, hq⟩
  | rti =>
    obtain ⟨q, rfl, hq⟩ := h
    exact ⟨_, _, rfl, rfl, _, rfl, .refl _ _⟩
  | brk | unrecognized op => cases hc

/-- The halt path saves P in one byte of memory, and D and I are not seen elsewhere (R183). -/
theorem haltPath_congr {s : State} {q : Byte} (h : AgreeOff [3, 2] s.p q) :
    haltPath { s with p := q } =
        { haltPath s with p := setFlag .i q, mem := (haltPath { s with p := q }).mem } ∧
      AgreeOff [3, 2] (haltPath s).p (haltPath { s with p := q }).p ∧
      ∀ b, b ≠ stackAddr (s.sp - 2) → (haltPath { s with p := q }).read b = (haltPath s).read b := by
  refine ⟨?_, ?_, fun b hb => ?_⟩
  · simp only [haltPath_eq]
  · rw [haltPath_p, haltPath_p]
    exact h.putFlag_both .i true
  · have hsp : s.sp - 1 - 1 = s.sp - 2 := by bv_omega
    simp only [haltPath_eq, State.read, Memory.read_write, hsp, if_neg hb]

end Machine

open Machine Claims

/-- Settles O47, by cases on the instruction; the shared computations write the bits of its row. -/
theorem flagsChangeOnlyWhereListed : Obligations.FlagsChangeOnlyWhereListed := exec_agreeOff

/-- Settles O48, by cases on the instruction and the one register it writes, if any. -/
theorem registersChangeOnlyWhereListed : Obligations.RegistersChangeOnlyWhereListed := exec_reg

/-- Settles O51: an instruction that continues reads no flag but N, V, Z and C; one that does not takes
the halt path, which stores P in one byte. -/
theorem decimalAndInterruptFlagsAreInert : Obligations.DecimalAndInterruptFlagsAreInert := by
  intro i s q hq
  have hag : AgreeOff [3, 2] s.p q := agreeOff_di_iff.2 hq
  cases hc : continueOf i with
  | true =>
    obtain ⟨t, t', ht, ht', q', rfl, hq'⟩ := exec_eqButDI hc ⟨q, rfl, hag⟩
    exact ⟨t, _, ht, ht', rfl, agreeOff_di_iff.1 hq', fun _ _ => rfl⟩
  | false =>
    obtain ⟨heq, hflags, hread⟩ := haltPath_congr hag
    exact ⟨_, _, exec_eq_haltPath hc s, exec_eq_haltPath hc _, heq,
      agreeOff_di_iff.1 hflags, fun b hb => hread b (hb rfl)⟩

end Sys2Proof
end

section
/-! PROOFS. Memory as 20_memory.md gives it: a read returns the byte last written (R36), an instruction
stores to its own addresses alone, and what stands around the core (the loader, the host, the run) keeps
the canonical form of memory. -/

namespace Sys2Proof
namespace Machine

/-! ### A read after a sequence of writes (R36) -/

/-- In a list of writes searched from its end, the first write counts only where no later one is found. -/
theorem lookup_reverse_cons_getD (b : Addr) (u : Byte) (ws : List (Addr × Byte)) (a : Addr)
    (v : Byte) :
    (((b, u) :: ws).reverse.lookup a).getD v =
      (ws.reverse.lookup a).getD (if a = b then u else v) := by
  rw [List.reverse_cons, List.lookup_append]
  cases ws.reverse.lookup a with
  | some _ => rfl
  | none =>
    by_cases h : a = b
    · simp [h]
    · simp [List.lookup_cons, beq_false_of_ne h, h]

theorem State.read_writes (c : State) (ws : List (Addr × Byte)) (a : Addr) :
    (ws.foldl (fun c w => c.write w.1 w.2) c).read a = (ws.reverse.lookup a).getD (c.read a) := by
  induction ws generalizing c with
  | nil => rfl
  | cons w ws ih =>
    rw [List.foldl_cons, ih, State.read_write, lookup_reverse_cons_getD]

/-! ### The bytes of memory an instruction changes (R36, R38, R84) -/

/-- `m'` reads as `m` outside the listed addresses. -/
def Memory.EqOff (addrs : List Addr) (m m' : Memory) : Prop :=
  ∀ b, b ∉ addrs → m'.read b = m.read b

theorem Memory.EqOff.refl (addrs : List Addr) (m : Memory) : Memory.EqOff addrs m m := fun _ _ => rfl

/-- Storing to one of the addresses. -/
theorem Memory.EqOff.write {addrs : List Addr} {m m' : Memory} (h : Memory.EqOff addrs m m') {a : Addr}
    (ha : a ∈ addrs) (v : Byte) : Memory.EqOff addrs m (m'.write a v) := fun b hb => by
  rw [Memory.read_write, if_neg (ne_of_mem_of_not_mem ha hb).symm, h b hb]

/-- One store, as every store and read-modify-write makes it. -/
theorem Memory.write_eqOff (m : Memory) (a : Addr) (v : Byte) : Memory.EqOff [a] m (m.write a v) :=
  (Memory.EqOff.refl _ m).write (List.mem_singleton_self a) v

theorem pushWord_eqOff (w : Addr) (c : State) :
    Memory.EqOff [stackAddr c.sp, stackAddr (c.sp - 1)] c.mem (pushWord w c).mem :=
  ((Memory.EqOff.refl _ _).write (by simp) _).write (by simp) _

theorem haltPath_eqOff (c : State) :
    Memory.EqOff [stackAddr c.sp, stackAddr (c.sp - 1), stackAddr (c.sp - 2)] c.mem
      (haltPath c).mem := by
  have hsp : c.sp - 1 - 1 = c.sp - 2 := by bv_omega
  rw [haltPath_eq, hsp]
  exact (((Memory.EqOff.refl _ _).write (by simp) _).write (by simp) _).write (by simp) _

/-- Every instruction changes memory at the addresses of the table after R36 alone. -/
theorem exec_eqOff (i : Instr) (s : State) :
    ∃ t, exec i s = .next t ∧ Memory.EqOff (Claims.addressesWritten s i) s.mem t.mem := by
  cases i with
  | sta m | stx m | sty m | inc m | dec m => exact ⟨_, rfl, Memory.write_eqOff _ _ _⟩
  | asl t | lsr t | rol t | ror t =>
    cases t with
    | acc => exact ⟨_, rfl, .refl _ _⟩
    | mem m => exact ⟨_, rfl, Memory.write_eqOff _ _ _⟩
  | jmpAbs w | jmpInd w | jsr w => exact ⟨_, rfl, pushWord_eqOff _ s⟩
  | brk | unrecognized op => exact ⟨_, rfl, haltPath_eqOff s⟩
  | lda o | ldx o | ldy o | cmp o | cpx o | cpy o | and o | ora o | eor o | adc o | sbc o =>
    cases o <;> exact ⟨_, rfl, .refl _ _⟩
  | bcc d | bcs d | beq d | bne d | bmi d | bpl d | bvc d | bvs d =>
    exact ⟨_, congrArg Host.Outcome.next (branch_eq _ d s), .refl _ _⟩
  | tax | txa | tay | tya | tsx | txs | inx | iny | dex | dey | rts | rti
  | sec | clc | sed | cld | sei | cli | clv | nop => exact ⟨_, rfl, .refl _ _⟩

/-! ### The canonical form around the core (R223, R224, R226, R227) -/

theorem hostWrites_keeps_inv (ws : List (Addr × Byte)) {s : State} (h : s.Inv) :
    (hostWrites ws s).Inv := by
  induction ws generalizing s with
  | nil => exact h
  | cons w ws ih => exact ih (hostWrite_keeps_inv h w.1 w.2)

theorem launch_inv (image : Option Image) (ws : List (Addr × Byte)) : (launch image ws).Inv := by
  have hreset : State.reset.Inv := Memory.wf_nil
  cases image with
  | none => exact hostWrites_keeps_inv ws hreset
  | some image => exact hostWrites_keeps_inv ws (loadImage_keeps_inv hreset image)

/-- One step of a run whose next state is known: it goes on from there or ends there. -/
theorem run_succ {k : Nat} {ws : List (List (Addr × Byte))} {s t : State}
    (h : step (hostWrites (ws.headD []) s) = .next t) :
    run (k + 1) ws s =
      if stepContinue (hostWrites (ws.headD []) s) then run k ws.tail t else .final t := by
  rw [run, stepResult_of_step h]

theorem run_keeps_inv {k : Nat} {ws : List (List (Addr × Byte))} {s t : State} (h : s.Inv)
    (hrun : run k ws s = .running t ∨ run k ws s = .final t) : t.Inv := by
  induction k generalizing ws s with
  | zero =>
    obtain hrun | hrun := hrun <;> cases hrun
    exact h
  | succ k ih =>
    obtain ⟨u, hu⟩ := step_total (hostWrites (ws.headD []) s)
    have hinv : u.Inv := step_keeps_inv (hostWrites_keeps_inv _ h) hu
    rw [run_succ hu] at hrun
    split at hrun
    · exact ih hinv hrun
    · obtain hrun | hrun := hrun <;> cases hrun
      exact hinv

end Machine

open Machine Claims

/-- Settles O17, by induction on the writes. -/
theorem readReturnsTheLastWrite : Obligations.ReadReturnsTheLastWrite :=
  ⟨State.read_writes, fun _ _ _ => rfl, Memory.read_nil⟩

/-- Settles O49, by cases on the instruction; whatever stores does so by `Memory.write`, at an address of
its row. -/
theorem memoryChangesOnlyWhereListed : Obligations.MemoryChangesOnlyWhereListed := exec_eqOff

/-- Settles O60: all of them store by `Memory.write` alone, and a run also steps, which keeps the form. -/
theorem hostAndLoaderKeepInvariant : Obligations.HostAndLoaderKeepInvariant :=
  ⟨fun _ a v h => hostWrite_keeps_inv h a v, fun _ ws h => hostWrites_keeps_inv ws h,
    fun _ file h => loadFile_keeps_inv h file, launch_inv,
    fun _ _ _ h => State.wf_writeBytes _ h _, fun _ _ _ _ h hrun => run_keeps_inv h hrun⟩

end Sys2Proof
end

section
/-! PROOFS. The encoding as 30_encoding.md gives it: encode and decode invert each other on the well-formed
instructions (R50, R51, R55), decoding fails on truncated lists alone (R58), and the unrecognized bytes are
those of R56. `Spells` stands between the two: decoding reads off what a list spells, and what a list spells
is encoded as that list. -/

namespace Sys2Proof.Laws.EncodedLength

/-- Every instruction that has an encoding has the length of its format. -/
theorem all : ∀ i : Instr, Statement i
  | .lda o => lda o | .ldx o => ldx o | .ldy o => ldy o
  | .sta m => sta m | .stx m => stx m | .sty m => sty m
  | .tax => tax | .txa => txa | .tay => tay | .tya => tya | .tsx => tsx | .txs => txs
  | .inc m => inc m | .dec m => dec m | .inx => inx | .iny => iny | .dex => dex | .dey => dey
  | .cmp o => cmp o | .cpx o => cpx o | .cpy o => cpy o
  | .and o => and o | .ora o => ora o | .eor o => eor o
  | .asl t => asl t | .lsr t => lsr t | .rol t => rol t | .ror t => ror t
  | .adc o => adc o | .sbc o => sbc o
  | .jmpAbs w => jmpAbs w | .jmpInd w => jmpInd w | .jsr w => jsr w | .rts => rts | .rti => rti
  | .bcc d => bcc d | .bcs d => bcs d | .beq d => beq d | .bne d => bne d
  | .bmi d => bmi d | .bpl d => bpl d | .bvc d => bvc d | .bvs d => bvs d
  | .sec => sec | .clc => clc | .sed => sed | .cld => cld | .sei => sei | .cli => cli | .clv => clv
  | .nop => nop | .brk => brk | .unrecognized op => unrecognized op

end Sys2Proof.Laws.EncodedLength

namespace Sys2Proof

/-! ### What has an encoding (R55, R56) -/

theorem isSome_lookup_eq_contains (row : List (ModeTag × Byte)) (t : ModeTag) :
    (row.lookup t).isSome = (row.map Prod.fst).contains t := by
  induction row with
  | nil => rfl
  | cons p row ih =>
    rw [List.lookup_cons, List.map_cons, List.contains_cons, ← ih]
    cases t == p.1 <;> rfl

theorem encodeMem_isSome (row : List (ModeTag × Byte)) (m : MemMode) :
    (encodeMem row m).isSome = m.isIn (row.map Prod.fst) := by
  rw [encodeMem, Option.isSome_map, isSome_lookup_eq_contains, MemMode.isIn]

theorem encodeSrc_isSome (imm : Byte) (row : List (ModeTag × Byte)) (o : Src) :
    (encodeSrc imm row o).isSome = o.isIn (row.map Prod.fst) := by
  cases o with
  | imm l => rfl
  | mem m => exact encodeMem_isSome row m

theorem encodeTarget_isSome (acc : Byte) (row : List (ModeTag × Byte)) (t : Target) :
    (encodeTarget acc row t).isSome = t.isIn (row.map Prod.fst) := by
  cases t with
  | acc => rfl
  | mem m => exact encodeMem_isSome row m

/-- The well-formed instructions are those that have an encoding. -/
theorem encode_isSome (i : Instr) : (encode i).isSome = i.wellFormed := by
  cases i with
  | lda o | ldx o | ldy o | cmp o | cpx o | cpy o | and o | ora o | eor o | adc o | sbc o =>
    exact encodeSrc_isSome _ _ o
  | asl t | lsr t | rol t | ror t => exact encodeTarget_isSome _ _ t
  | sta m | stx m | sty m | inc m | dec m => exact encodeMem_isSome _ m
  | unrecognized op =>
    by_cases hop : op ∈ unrecognizedOpcodes <;> simp [encode, Instr.wellFormed, hop]
  | jmpAbs _ | jmpInd _ | jsr _ | bcc _ | bcs _ | beq _ | bne _ | bmi _ | bpl _ | bvc _ | bvs _
  | tax | txa | tay | tya | tsx | txs | inx | iny | dex | dey | rts | rti
  | sec | clc | sed | cld | sei | cli | clv | nop | brk => rfl

/-! ### The opcode map read back by the encoder (R55, R56) -/

/-- The instructions of the entry are encoded with the opcode `op`, in the entry's format. -/
def Entry.Encodes (op : Byte) : Entry → Prop
  | .one i => encode i = some [op]
  | .byte make => ∀ l, encode (make l) = some [op, l]
  | .word make => ∀ w, encode (make w) = some [op, loByte w, hiByte w]

/-- The converse of `opcodeEntry_of_mem_unrecognizedOpcodes`: the list of R56 leaves out no byte that the
opcode map does not name. -/
theorem contains_of_isUnrecognized : ∀ op : Byte,
    (opcodeEntry op).isUnrecognized op = true → unrecognizedOpcodes.contains op = true := by decide

theorem eq_ofNat_of_toNat_eq {op : Byte} {n : Nat} (h : op.toNat = n) : op = BitVec.ofNat 8 n := by
  subst h
  simp

/-- Every entry of the opcode map is encoded with the opcode it stands at. -/
theorem encodes_of_opcodeEntry {op : Byte} {e : Entry} (h : opcodeEntry op = e) : e.Encodes op := by
  subst h
  have hlisted := contains_of_isUnrecognized op
  revert hlisted
  unfold opcodeEntry
  split
  -- the last arm, of the bytes that the map does not name
  case h_146 => exact fun hlisted => if_pos (hlisted (beq_self_eq_true op))
  all_goals
    rename_i hop
    obtain rfl := eq_ofNat_of_toNat_eq hop
    simp only [Entry.Encodes]
    intros
    rfl

/-- What a list spells is encoded as that list: the converse of `encode_spells`. -/
theorem encode_of_spells {bs : List Byte} {i : Instr} (h : Spells bs i) : encode i = some bs := by
  cases h with
  | one hop => exact encodes_of_opcodeEntry hop
  | byte hop l => exact encodes_of_opcodeEntry hop l
  | word hop w => exact encodes_of_opcodeEntry hop w

/-! ### What the decoder reads (R50, R58) -/

theorem decode_of_spells {bs : List Byte} {i : Instr} (h : Spells bs i) (rest : List Byte) :
    decode (bs ++ rest) = .ok (i, rest) := by
  cases h with
  | one hop => exact decode_one hop rest
  | byte hop l => exact decode_byte hop l rest
  | word hop w => simpa using decode_word hop (loByte w) (hiByte w) rest

/-- An encoding with nothing after it. -/
theorem decode_of_encode {i : Instr} {bs : List Byte} (h : encode i = some bs) :
    decode bs = .ok (i, []) := by
  simpa using decode_of_spells (encode_spells h) []

/-- With at least the bytes that the opcode needs, those bytes spell an instruction. -/
theorem exists_spells_take {op : Byte} {rest : List Byte} (h : opcodeLength op ≤ rest.length + 1) :
    ∃ i, Spells (op :: rest.take (opcodeLength op - 1)) i := by
  unfold opcodeLength at h ⊢
  cases hop : opcodeEntry op with
  | one i => exact ⟨i, .one hop⟩
  | byte make =>
    match rest with
    | [] => simp [hop] at h
    | l :: _ => exact ⟨make l, .byte hop l⟩
  | word make =>
    match rest with
    | [] | [_] => simp [hop] at h
    | l :: hi :: _ => exact ⟨make (word hi l), by simpa using Spells.word hop (word hi l)⟩

/-- And the list decodes to it, leaving the bytes past its length. -/
theorem exists_decode_of_length_le {op : Byte} {rest : List Byte}
    (h : opcodeLength op ≤ rest.length + 1) :
    ∃ i, Spells (op :: rest.take (opcodeLength op - 1)) i ∧
      decode (op :: rest) = .ok (i, rest.drop (opcodeLength op - 1)) := by
  obtain ⟨i, hi⟩ := exists_spells_take h
  exact ⟨i, hi, by simpa using decode_of_spells hi (rest.drop (opcodeLength op - 1))⟩

/-- With fewer, the list is refused. -/
theorem decode_truncated {op : Byte} {rest : List Byte} (h : rest.length + 1 < opcodeLength op) :
    decode (op :: rest) = .error (.truncated op) := by
  unfold opcodeLength at h
  cases hop : opcodeEntry op with
  | one i => simp [hop] at h
  | byte make =>
    obtain rfl : rest = [] := by simpa [hop] using h
    simp [decode, hop]
  | word make =>
    match rest with
    | [] | [_] => simp [decode, hop]
    | _ :: _ :: _ => simp [hop] at h; omega

/-- Whatever decodes was spelled by the bytes before the rest: the converse of `decode_of_spells`. -/
theorem spells_of_decode {bs rest : List Byte} {i : Instr} (h : decode bs = .ok (i, rest)) :
    ∃ pre, Spells pre i ∧ bs = pre ++ rest := by
  cases bs with
  | nil => cases h
  | cons op tail =>
    obtain hlt | hle := Nat.lt_or_ge (tail.length + 1) (opcodeLength op)
    · rw [decode_truncated hlt] at h
      cases h
    · obtain ⟨j, hj, hdec⟩ := exists_decode_of_length_le hle
      rw [hdec] at h
      cases h
      exact ⟨_, hj, by simp⟩

/-- Settles O1: a well-formed instruction has an encoding, which spells it, and so decodes to it. -/
theorem decodeInvertsEncode : Obligations.DecodeInvertsEncode := by
  intro i hwf
  obtain ⟨bs, henc⟩ := Option.isSome_iff_exists.1 ((encode_isSome i).trans hwf)
  exact ⟨bs, henc, Laws.EncodedLength.all i bs henc, decode_of_spells (encode_spells henc)⟩

/-- Settles O2: what decodes was spelled by the bytes read, and what is spelled is encoded so. -/
theorem encodeInvertsDecode : Obligations.EncodeInvertsDecode := by
  intro bs rest i hdec
  obtain ⟨pre, hpre, hbs⟩ := spells_of_decode hdec
  have henc : encode i = some pre := encode_of_spells hpre
  exact ⟨(encode_isSome i).symm.trans (Option.isSome_iff_exists.2 ⟨pre, henc⟩), pre, henc, hbs⟩

/-- Settles O3: enough bytes spell an instruction, whose bytes then decode to it; fewer are refused. -/
theorem decodeFailsOnlyWhenTruncated : Obligations.DecodeFailsOnlyWhenTruncated := by
  refine ⟨fun op rest h => ?_, fun _ _ h => decode_truncated h⟩
  obtain ⟨i, -, hdec⟩ := exists_decode_of_length_le h
  exact ⟨i, hdec⟩

/-- Settles O4: only a listed byte is well formed as an unrecognized instruction, and a listed byte has the
entry of one. -/
theorem unrecognizedBytesAreTheListed : Obligations.UnrecognizedBytesAreTheListed := by
  refine fun op rest => ⟨fun hdec => ?_, fun hop => ?_⟩
  · obtain ⟨hwf, -⟩ := encodeInvertsDecode _ _ _ hdec
    exact List.contains_iff_mem.1 hwf
  · exact decode_one (opcodeEntry_of_mem_unrecognizedOpcodes hop) rest

/-- Settles O5: each word is the encoding of the instruction it stands for. -/
theorem writtenOutWordsDecode : Obligations.WrittenOutWordsDecode :=
  ⟨decode_of_encode rfl, decode_of_encode rfl, decode_of_encode rfl, decode_of_encode rfl,
    decode_of_encode rfl, decode_of_encode rfl, decode_of_encode rfl, decode_of_encode rfl,
    decode_of_encode rfl, decode_of_encode rfl, decode_of_encode rfl, decode_of_encode rfl⟩

end Sys2Proof
end

section
/-! PROOFS. The effective addresses as 40_addressing_modes.md gives them, as numbers: the zero-page sums
modulo 256, the sums with a word modulo 65536, the pointer's high byte at the next address. -/

namespace Sys2Proof
namespace Machine

/-! ### Extended bytes, index sums and zero-page pointers as numbers -/

theorem zext16_toNat (b : Byte) : (zext16 b).toNat = b.toNat :=
  BitVec.toNat_setWidth_of_le (by decide)

/-- An index added to a byte stays inside page zero (R73). -/
theorem zext16_add_toNat (l i : Byte) : (zext16 (l + i)).toNat = (l.toNat + i.toNat) % 256 := by
  rw [zext16_toNat, BitVec.toNat_add]

/-- An index added to a word drops the carry out of bit 15 (R77). -/
theorem add_zext16_toNat (w : Addr) (i : Byte) :
    (w + zext16 i).toNat = (w.toNat + i.toNat) % 65536 := by
  rw [BitVec.toNat_add, zext16_toNat]

theorem zext16_eq_ofNat (b : Byte) : zext16 b = BitVec.ofNat 16 b.toNat := by
  rw [← zext16_toNat b, BitVec.ofNat_toNat, BitVec.setWidth_eq]

/-- The high byte is read one on from the pointer's address with no wrap into page zero (R31; the spec's
decisions D8 and D9). -/
theorem zeroPagePointer_toNat (c : State) (z : Byte) :
    (zeroPagePointer c z).toNat =
      (c.read (BitVec.ofNat 16 (z.toNat + 1))).toNat * 256 +
        (c.read (BitVec.ofNat 16 z.toNat)).toNat := by
  have hnext : zext16 z + 1 = BitVec.ofNat 16 (z.toNat + 1) := by
    rw [zext16_eq_ofNat, BitVec.ofNat_add, BitVec.ofNat_eq_ofNat]
  rw [zeroPagePointer, Memory.readWord, word_toNat, hnext, zext16_eq_ofNat]
  rfl

end Machine

open Machine

/-- Settles O28: the addresses are extended bytes; resolving only advances PC. -/
theorem zeroPageModes : Obligations.ZeroPageModes := fun c l =>
  ⟨zext16_toNat l, zext16_add_toNat l c.x, zext16_add_toNat l c.y, rfl, rfl, rfl⟩

/-- Settles O29: the operand word is the number its bytes make, and an index is added to it as a word. -/
theorem absoluteModes : Obligations.AbsoluteModes := by
  intro c h l
  have hindexed (i : Byte) :
      (word h l + zext16 i).toNat = (h.toNat * 256 + l.toNat + i.toNat) % 65536 := by
    rw [add_zext16_toNat, word_toNat]
  exact ⟨word_toNat h l, hindexed c.x, hindexed c.y, rfl, rfl, rfl⟩

/-- Settles O30: (indirect,X) adds its index to the pointer's address, (indirect),Y to the pointer. -/
theorem indirectModes : Obligations.IndirectModes := by
  refine fun c l => ⟨?_, ?_, rfl, rfl⟩
  · have hsum : (l + c.x).toNat = (l.toNat + c.x.toNat) % 256 := BitVec.toNat_add l c.x
    rw [resolve_eq, effectiveAddress, zeroPagePointer_toNat, hsum]
  · rw [resolve_eq, effectiveAddress, add_zext16_toNat, zeroPagePointer_toNat]

end Sys2Proof
end

section
/-! PROOFS. The primitives of 41_primitives.md: the flags each writes (R90, R91, R94, R97, R98, R101, R102),
the loops of R95 and R96 against their closed forms, the rotates of R99 and R100 as a ring of nine bits, the
stack (R103 to R106), and the compares and INC then DEC, which are primitives on an operand. -/

namespace Sys2Proof
namespace Claims
open Machine

/-! ### The flags written, one write after another -/

theorem lookup_cons_getD (k j : Nat) (b d : Bool) (changed : List (Nat × Bool)) :
    (((j, b) :: changed).lookup k).getD d = if k = j then b else (changed.lookup k).getD d := by
  rw [List.lookup_cons]
  by_cases h : k = j
  · simp [h]
  · simp [beq_false_of_ne h, h]

namespace FlagsAre
variable {p q : Byte} {changed : List (Nat × Bool)}

theorem refl (p : Byte) : FlagsAre p p [] := fun _ _ => rfl

/-- A flag written last has the value written, whatever was written before (R91). -/
theorem after_putFlag (h : FlagsAre p q changed) (f : Flag) (b : Bool) :
    FlagsAre p (putFlag f b q) ((f.bit, b) :: changed) := fun k hk => by
  rw [putFlag_getLsbD f b q k hk, h k hk, lookup_cons_getD]

theorem after_setNZ (h : FlagsAre p q changed) (v : Byte) :
    FlagsAre p (setNZ v q) (nz v ++ changed) := by
  rw [setNZ, msb_eq]
  exact (h.after_putFlag .z (v == 0)).after_putFlag .n _

/-- Z and N written a second time are those of the second byte. -/
theorem after_setNZ_again {u : Byte} (h : FlagsAre p q (nz u)) (v : Byte) :
    FlagsAre p (setNZ v q) (nz v) := fun k hk => by
  rw [setNZ_getLsbD v q k hk, h k hk]
  simp only [nz, lookup_cons_getD, List.lookup_nil, Option.getD_none]
  split_ifs <;> rfl

end FlagsAre

theorem setNZ_flagsAre (v p : Byte) : FlagsAre p (setNZ v p) (nz v) := (FlagsAre.refl p).after_setNZ v

theorem compare_flagsAre (a b p : Byte) : FlagsAre p (compare a b p) (compareFlags a b) := fun k hk => by
  rw [compare_getLsbD a b p k hk]
  simp only [compareFlags, lookup_cons_getD, List.lookup_nil, Option.getD_none, BitVec.le_def]

end Claims

namespace Machine
open Claims

/-! ### The shifts (R97, R98) -/

theorem shiftLeft_fst_toNat (v p : Byte) : (shiftLeft v p).1.toNat = v.toNat * 2 % 256 := by
  rw [shiftLeft, BitVec.toNat_shiftLeft, Nat.shiftLeft_eq]

theorem shiftRight_fst_toNat (v p : Byte) : (shiftRight v p).1.toNat = v.toNat / 2 := by
  rw [shiftRight, BitVec.toNat_ushiftRight, Nat.shiftRight_eq_div_pow]

theorem shiftLeft_fst_getLsbD (v p : Byte) {k : Nat} (hk : k + 1 < 8) :
    (shiftLeft v p).1.getLsbD (k + 1) = v.getLsbD k := by
  simp [shiftLeft, hk, BitVec.getLsbD_eq_getElem (Nat.lt_of_succ_lt hk)]

theorem shiftRight_fst_getLsbD (v p : Byte) (k : Nat) :
    (shiftRight v p).1.getLsbD k = v.getLsbD (k + 1) := by
  simp [shiftRight, Nat.add_comm]

theorem shiftLeft_flagsAre (v p : Byte) : FlagsAre p (shiftLeft v p).2 (leftFlags v) := by
  have hzero : (shiftLeft v p).1 = 0 ↔ v.toNat * 2 % 256 = 0 := by
    rw [← shiftLeft_fst_toNat v p, ← BitVec.toNat_inj]
    rfl
  have hflags := ((FlagsAre.refl p).after_putFlag .c v.msb).after_setNZ (shiftLeft v p).1
  rw [nz, shiftLeft_fst_getLsbD v p (by decide), decide_eq_decide.2 hzero, msb_eq] at hflags
  exact hflags

theorem shiftRight_flagsAre (v p : Byte) : FlagsAre p (shiftRight v p).2 (rightFlags v) := by
  have hzero : (shiftRight v p).1 = 0 ↔ v.toNat / 2 = 0 := by
    rw [← shiftRight_fst_toNat v p, ← BitVec.toNat_inj]
    rfl
  have hsign : v.getLsbD (7 + 1) = false := BitVec.getLsbD_of_ge v 8 (Nat.le_refl 8)
  have hflags := ((FlagsAre.refl p).after_putFlag .c (v.getLsbD 0)).after_setNZ (shiftRight v p).1
  rw [nz, shiftRight_fst_getLsbD, hsign, decide_eq_decide.2 hzero] at hflags
  exact hflags

/-! ### The rotates (R99, R100) -/

theorem carryBit_getLsbD (p : Byte) (k : Nat) :
    (BitVec.ofNat 8 (carryIn p)).getLsbD k = (decide (k = 0) && p.getLsbD 0) := by
  rw [carryIn_eq]
  cases p.getLsbD 0 <;> simp

theorem rotateLeft_fst_getLsbD_zero (v p : Byte) : (rotateLeft v p).1.getLsbD 0 = p.getLsbD 0 := by
  rw [rotateLeft, BitVec.getLsbD_or, carryBit_getLsbD]
  simp [shiftLeft]

theorem rotateLeft_fst_getLsbD_succ (v p : Byte) {k : Nat} (hk : k + 1 < 8) :
    (rotateLeft v p).1.getLsbD (k + 1) = v.getLsbD k := by
  rw [rotateLeft, BitVec.getLsbD_or, carryBit_getLsbD, shiftLeft_fst_getLsbD v p hk]
  simp

theorem rotateLeft_carry (v p : Byte) : (rotateLeft v p).2.getLsbD 0 = v.getLsbD 7 :=
  shiftLeft_snd_getLsbD v p 0 (by decide)

theorem rotateRight_fst_getLsbD_seven (v p : Byte) : (rotateRight v p).1.getLsbD 7 = p.getLsbD 0 := by
  rw [rotateRight, BitVec.getLsbD_or, BitVec.getLsbD_shiftLeft, carryBit_getLsbD, shiftRight_fst_getLsbD]
  simp

theorem rotateRight_fst_getLsbD_of_lt (v p : Byte) {k : Nat} (hk : k < 7) :
    (rotateRight v p).1.getLsbD k = v.getLsbD (k + 1) := by
  rw [rotateRight, BitVec.getLsbD_or, BitVec.getLsbD_shiftLeft, shiftRight_fst_getLsbD]
  simp [hk]

theorem rotateRight_carry (v p : Byte) : (rotateRight v p).2.getLsbD 0 = v.getLsbD 0 :=
  shiftRight_snd_getLsbD v p 0 (by decide)

/-! ### A byte and the Carry as a ring of nine bits -/

/-- Place `k` modulo 9 of the ring in which the Carry follows bit 7 of the byte. -/
def ringBit (s : Byte × Byte) (k : Nat) : Bool :=
  if k % 9 = 8 then s.2.getLsbD 0 else s.1.getLsbD (k % 9)

theorem ringBit_add_nine (s : Byte × Byte) (k : Nat) : ringBit s (k + 9) = ringBit s k := by
  rw [ringBit, ringBit, Nat.add_mod_right]

theorem ringBit_of_eq_eight (s : Byte × Byte) {k : Nat} (h : k % 9 = 8) :
    ringBit s k = s.2.getLsbD 0 := if_pos h

theorem ringBit_of_lt_eight (s : Byte × Byte) {j k : Nat} (h : k % 9 = j) (hj : j < 8) :
    ringBit s k = s.1.getLsbD j := by
  rw [ringBit, h, if_neg hj.ne]

/-- A byte and a Carry are known by their ring. -/
theorem eq_of_ringBit_eq {s t : Byte × Byte} (h : ∀ k, ringBit s k = ringBit t k) :
    s.1 = t.1 ∧ s.2.getLsbD 0 = t.2.getLsbD 0 := by
  refine ⟨BitVec.eq_of_getLsbD_eq fun k hk => ?_, h 8⟩
  have hmod : k % 9 = k := Nat.mod_eq_of_lt (Nat.lt_succ_of_lt hk)
  rw [← ringBit_of_lt_eight s hmod hk, ← ringBit_of_lt_eight t hmod hk, h]

/-- From one place of the ring to the next: into the byte, into the Carry, or along the byte. -/
theorem ring_succ_cases (k : Nat) :
    (k % 9 = 8 ∧ (k + 1) % 9 = 0) ∨ (k % 9 = 7 ∧ (k + 1) % 9 = 8) ∨
      (k % 9 < 7 ∧ (k + 1) % 9 = k % 9 + 1) := by omega

theorem ringBit_rotateLeft (s : Byte × Byte) (k : Nat) :
    ringBit (rotateLeft s.1 s.2) (k + 1) = ringBit s k := by
  obtain ⟨h, h'⟩ | ⟨h, h'⟩ | ⟨h, h'⟩ := ring_succ_cases k
  · rw [ringBit_of_lt_eight _ h' (by decide), ringBit_of_eq_eight _ h, rotateLeft_fst_getLsbD_zero]
  · rw [ringBit_of_eq_eight _ h', ringBit_of_lt_eight _ h (by decide), rotateLeft_carry]
  · have hlt : k % 9 + 1 < 8 := Nat.succ_lt_succ h
    rw [ringBit_of_lt_eight _ h' hlt, ringBit_of_lt_eight _ rfl (Nat.lt_of_succ_lt hlt),
      rotateLeft_fst_getLsbD_succ _ _ hlt]

theorem ringBit_rotateRight (s : Byte × Byte) (k : Nat) :
    ringBit (rotateRight s.1 s.2) k = ringBit s (k + 1) := by
  obtain ⟨h, h'⟩ | ⟨h, h'⟩ | ⟨h, h'⟩ := ring_succ_cases k
  · rw [ringBit_of_eq_eight _ h, ringBit_of_lt_eight _ h' (by decide), rotateRight_carry]
  · rw [ringBit_of_lt_eight _ h (by decide), ringBit_of_eq_eight _ h', rotateRight_fst_getLsbD_seven]
  · have hlt : k % 9 + 1 < 8 := Nat.succ_lt_succ h
    rw [ringBit_of_lt_eight _ rfl (Nat.lt_of_succ_lt hlt), ringBit_of_lt_eight _ h' hlt,
      rotateRight_fst_getLsbD_of_lt _ _ h]

theorem ringBit_rotations_rotateLeft (n : Nat) (s : Byte × Byte) (k : Nat) :
    ringBit (rotations rotateLeft n s) (k + n) = ringBit s k := by
  induction n generalizing s k with
  | zero => rfl
  | succ n ih =>
    have hplace : k + (n + 1) = k + 1 + n := by omega
    rw [rotations, hplace, ih, ringBit_rotateLeft]

theorem ringBit_rotations_rotateRight (n : Nat) (s : Byte × Byte) (k : Nat) :
    ringBit (rotations rotateRight n s) k = ringBit s (k + n) := by
  induction n generalizing s k with
  | zero => rfl
  | succ n ih => rw [rotations, ih, ringBit_rotateRight, Nat.add_assoc]

/-! ### The loops of `Add` and `Sub` (R95, R96) -/

/-- The accumulator and P when unit steps have brought the count to `n`: the count modulo 256, and in V
whether it has left the byte. -/
def counted (p : Byte) (n : Int) : Byte × Byte :=
  (BitVec.ofInt 8 n, putFlag .v (decide (n < 0 ∨ 255 < n)) p)

theorem counted_of_byte (p a : Byte) : counted p a.toNat = (a, clearFlag .v p) := by
  have hin : ¬((a.toNat : Int) < 0 ∨ 255 < (a.toNat : Int)) := by omega
  rw [counted, decide_eq_false hin, BitVec.ofInt_natCast, BitVec.ofNat_toNat, BitVec.setWidth_eq]
  rfl

theorem setFlag_putFlag (f : Flag) (b : Bool) (p : Byte) : setFlag f (putFlag f b p) = setFlag f p :=
  BitVec.eq_of_getLsbD_eq fun k hk => by
    rw [setFlag_getLsbD _ _ k hk, setFlag_getLsbD _ _ k hk, putFlag_getLsbD _ _ _ k hk]
    split_ifs <;> rfl

/-- V set where the count leaves the byte, and kept where it does not. -/
theorem counted_overflow (p : Byte) {n m : Int} {wraps : Prop} [Decidable wraps]
    (hwrap : wraps → m < 0 ∨ 255 < m) (hstay : ¬wraps → (n < 0 ∨ 255 < n ↔ m < 0 ∨ 255 < m)) :
    (if wraps then setFlag .v (counted p n).2 else (counted p n).2) = (counted p m).2 := by
  by_cases h : wraps
  · rw [if_pos h, counted, counted, setFlag_putFlag, decide_eq_true (hwrap h), putFlag_true]
  · rw [if_neg h, counted, counted, decide_eq_decide.2 (hstay h)]

/-- An increment counts up. A count that has wrapped at most once wraps at 256 alone. -/
theorem addUnit_counted (p : Byte) {n : Int} (h0 : 0 ≤ n) (h : n < 511) :
    addUnit (counted p n) = counted p (n + 1) := by
  have hval : (counted p n).1 + 1 = (counted p (n + 1)).1 := (BitVec.ofInt_add n 1).symm
  have hwrap : (counted p (n + 1)).1 = 0x00 ↔ n + 1 = 256 := by
    rw [counted, ← BitVec.toNat_inj, BitVec.toNat_ofInt]
    change _ = 0 ↔ _
    omega
  simp only [addUnit, hval, hwrap]
  exact Prod.ext rfl (counted_overflow p (by omega) (by omega))

/-- A decrement counts down. A count that has wrapped at most once wraps at -1 alone. -/
theorem subUnit_counted (p : Byte) {n : Int} (h : -256 < n) (h255 : n ≤ 255) :
    subUnit (counted p n) = counted p (n - 1) := by
  have hval : (counted p n).1 - 1 = (counted p (n - 1)).1 := by
    have hback : BitVec.ofInt 8 (n - 1) + 1 = BitVec.ofInt 8 (n - 1 + 1) := (BitVec.ofInt_add _ 1).symm
    exact sub_eq_of_eq_add (by rw [counted, counted, hback, Int.sub_add_cancel])
  have hwrap : (counted p (n - 1)).1 = 0xFF ↔ n - 1 = -1 := by
    rw [counted, ← BitVec.toNat_inj, BitVec.toNat_ofInt]
    change _ = 255 ↔ _
    omega
  simp only [subUnit, hval, hwrap]
  exact Prod.ext rfl (counted_overflow p (by omega) (by omega))

/-- `k` unit steps along a sequence of states that each unit step follows. -/
theorem repeatUnit_eq {unit : Byte × Byte → Byte × Byte} (f : Nat → Byte × Byte) {k : Nat}
    (h : ∀ j, j < k → unit (f j) = f (j + 1)) : repeatUnit unit k (f 0) = f k := by
  induction k generalizing f with
  | zero => rfl
  | succ k ih =>
    rw [repeatUnit, h 0 k.succ_pos]
    exact ih (fun j => f (j + 1)) fun j hj => h (j + 1) (Nat.succ_lt_succ hj)

/-- The end of the loop: Overflow promoted into Carry, then `setNZ`. -/
def closeUnits (s : Byte × Byte) : Byte × Byte :=
  (s.1, setNZ s.1 (putFlag .c (getFlag .v s.2) s.2))

/-- The loop makes `b` unit steps, and the Carry one more. -/
theorem unitLoop_eq {unit : Byte × Byte → Byte × Byte} (f : Nat → Byte × Byte) {a b p : Byte}
    (h0 : f 0 = (a, clearFlag .v p)) (h : ∀ j, j ≤ 255 → unit (f j) = f (j + 1)) :
    unitLoop unit a b p = closeUnits (f (b.toNat + carryIn p)) := by
  have hb : b.toNat < 256 := b.isLt
  have hrep : repeatUnit unit b.toNat (a, clearFlag .v p) = f b.toNat := by
    rw [← h0]
    exact repeatUnit_eq f fun j hj => h j (by omega)
  rw [unitLoop, hrep, carryIn]
  cases getFlag .c p with
  | false => rfl
  | true =>
    rw [if_pos rfl, h b.toNat (by omega)]
    rfl

theorem getFlag_putFlag (f : Flag) (b : Bool) (p : Byte) : getFlag f (putFlag f b p) = b := by
  cases b
  · exact getFlag_clearFlag f p
  · exact getFlag_setFlag f p

theorem closeUnits_counted (p : Byte) (n : Int) {wrapped : Prop} [Decidable wrapped]
    (h : n < 0 ∨ 255 < n ↔ wrapped) :
    closeUnits (counted p n) =
      (BitVec.ofInt 8 n,
        setNZ (BitVec.ofInt 8 n) (putFlag .c (decide wrapped) (putFlag .v (decide wrapped) p))) := by
  rw [closeUnits, counted, getFlag_putFlag, decide_eq_decide.2 h]

/-! ### The stack (R103 to R106) -/

theorem push_storesOnly (b : Byte) (c : State) : StoresOnly c (push b c) (stackAddr c.sp) b :=
  ⟨(push_read b c _).trans (if_pos rfl), fun _ ha => (push_read b c _).trans (if_neg ha)⟩

theorem pushWord_read_low (w : Addr) (c : State) :
    (pushWord w c).read (stackAddr (c.sp - 1)) = loByte w := by
  rw [pushWord_read, if_pos rfl]

/-- The low byte goes to another cell, even where SP wraps. -/
theorem pushWord_read_high (w : Addr) (c : State) : (pushWord w c).read (stackAddr c.sp) = hiByte w := by
  have hother : stackAddr c.sp ≠ stackAddr (c.sp - 1) := fun h => sub_one_ne c.sp (stackAddr_inj.1 h).symm
  rw [pushWord_read, if_neg hother, if_pos rfl]

theorem pushWord_pushesWord (w : Addr) (c : State) : PushesWord c (pushWord w c) w.toNat := by
  refine ⟨?_, ?_, fun b hhigh hlow => ?_⟩
  · rw [pushWord_read_high, hiByte_toNat]
  · rw [pushWord_read_low, loByte_toNat]
  · rw [pushWord_read, if_neg hlow, if_neg hhigh]

/-- Popping takes both bytes of the pushed word back. -/
theorem popWord_pushWord (w : Addr) (c : State) :
    (popWord (pushWord w c)).1 = w ∧ (popWord (pushWord w c)).2.sp = c.sp := by
  have hlow : (pushWord w c).sp + 1 = c.sp - 1 := BitVec.sub_add_cancel (c.sp - 1) 1
  have hhigh : (pushWord w c).sp + 1 + 1 = c.sp := by rw [hlow]; exact BitVec.sub_add_cancel c.sp 1
  refine ⟨?_, hhigh⟩
  rw [popWord_value, hhigh, hlow, pushWord_read_high, pushWord_read_low, word_hiByte_loByte]

/-! ### A cell changed and changed back (R107) -/

theorem Memory.read_write_back (m : Memory) (a b : Addr) (v : Byte) :
    ((m.write a v).write a (m.read a)).read b = m.read b := by
  rw [read_write, read_write]
  by_cases h : b = a
  · rw [if_pos h, h]
  · rw [if_neg h, if_neg h]

/-- The modes of INC and DEC take their address from the operand and X alone (R72, R73, R75, R76). -/
theorem effectiveAddress_congr {m : MemMode} (hm : m.isIn modifyModes = true) {s t : State}
    (hx : t.x = s.x) : effectiveAddress t m = effectiveAddress s m := by
  cases m with
  | zp l | abs w => rfl
  | zpx l | absx w => rw [effectiveAddress, effectiveAddress, hx]
  | zpy l | absy w | indx l | indy l => cases hm

end Machine

open Machine Claims

/-- Settles O21: the increments count up to the sum, from which both forms take the byte and the flags. -/
theorem addLoopIsClosedForm : Obligations.AddLoopIsClosedForm := by
  intro a b p
  have ha : a.toNat < 256 := a.isLt
  have hloop : addLoop a b p = closeUnits (counted p (a.toNat + (b.toNat + carryIn p) : Nat)) :=
    unitLoop_eq (fun k => counted p (a.toNat + k : Nat)) (counted_of_byte p a) fun j hj =>
      addUnit_counted p (n := (a.toNat + j : Nat)) (by omega) (by omega)
  rw [hloop, ← Nat.add_assoc,
    closeUnits_counted p _ (wrapped := 255 < a.toNat + b.toNat + carryIn p) (by omega),
    BitVec.ofInt_natCast, add]

/-- Settles O22: the decrements count down to the difference, which never passes 255. -/
theorem subLoopIsClosedForm : Obligations.SubLoopIsClosedForm := by
  intro a b p
  have ha : a.toNat < 256 := a.isLt
  have hloop : subLoop a b p = closeUnits (counted p (a.toNat - (b.toNat + carryIn p : Nat))) := by
    refine unitLoop_eq (fun k => counted p (a.toNat - k)) (by simpa using counted_of_byte p a) fun j hj => ?_
    have hnext : (a.toNat : Int) - (j + 1 : Nat) = a.toNat - j - 1 := by omega
    rw [hnext]
    exact subUnit_counted p (by omega) (by omega)
  have hdiff : (a.toNat : Int) - (b.toNat + carryIn p : Nat) = a.toNat - b.toNat - carryIn p := by omega
  rw [hloop, hdiff, closeUnits_counted p _ (wrapped := (a.toNat : Int) - b.toNat - carryIn p < 0) (by omega),
    sub]

/-- Settles O24: each rotate turns the ring of nine bits by one place. -/
theorem nineRotatesRestore : Obligations.NineRotatesRestore := by
  intro v p
  have hleft (k : Nat) : ringBit (rotations rotateLeft 9 (v, p)) k = ringBit (v, p) k := by
    rw [← ringBit_add_nine, ringBit_rotations_rotateLeft]
  have hright (k : Nat) : ringBit (rotations rotateRight 9 (v, p)) k = ringBit (v, p) k := by
    rw [ringBit_rotations_rotateRight, ringBit_add_nine]
  obtain ⟨hbyteL, hcarryL⟩ := eq_of_ringBit_eq hleft
  obtain ⟨hbyteR, hcarryR⟩ := eq_of_ringBit_eq hright
  exact ⟨hbyteL, hcarryL, hbyteR, hcarryR⟩

/-- Settles O36: a compare writes P and PC alone, whichever the form of its operand. -/
theorem comparesSetFlagsOnly : Obligations.ComparesSetFlagsOnly := by
  intro o s
  have hcompare (r : Byte) :
      FlagsAre s.p (compare r (operandByte s o) s.p) (compareFlags r (operandByte s o)) :=
    compare_flagsAre r _ s.p
  cases o <;>
    exact ⟨⟨_, hcompare s.a, rfl, rfl⟩, ⟨_, hcompare s.x, rfl, rfl⟩, ⟨_, hcompare s.y, rfl, rfl⟩⟩

/-- Settles O54: the mode designates the same cell again, and adding and subtracting 1 give its byte back. -/
theorem incThenDecRestoresMemory : Obligations.IncThenDecRestoresMemory := by
  intro m s t hwf hinc
  obtain ⟨hx, hp, hmem⟩ : t.x = s.x ∧ t.p = setNZ (s.read (effectiveAddress s m) + 1) s.p ∧
      t.mem = s.mem.write (effectiveAddress s m) (s.read (effectiveAddress s m) + 1) := by
    cases hinc
    exact ⟨rfl, rfl, rfl⟩
  have hback : t.read (effectiveAddress s m) - 1 = s.read (effectiveAddress s m) := by
    rw [State.read, hmem, Memory.read_write, if_pos rfl]
    exact BitVec.add_sub_cancel _ 1
  refine ⟨_, exec_dec m t, ?_⟩
  rw [effectiveAddress_congr hwf hx, decrement, hback, hmem, hp]
  exact ⟨fun b => Memory.read_write_back s.mem _ b _, (setNZ_flagsAre _ s.p).after_setNZ_again _⟩

/-- Settles O19: Z is 1 for the byte 0 alone, whose bit 7 is 0. -/
theorem setNZWritesZeroAndNegative : Obligations.SetNZWritesZeroAndNegative := by
  refine fun v p => ⟨setNZ_flagsAre v p, fun ⟨hn, hz⟩ => ?_⟩
  rw [setNZ_flagsAre v p 7 (by decide)] at hn
  rw [setNZ_flagsAre v p 1 (by decide)] at hz
  have hv : v = 0 := of_decide_eq_true hz
  rw [hv] at hn
  cases hn

/-- Settles O20: setting and clearing are the two writes of one flag. -/
theorem flagWriteChangesOneBit : Obligations.FlagWriteChangesOneBit := by
  intro p
  have hwrite (f : Flag) (b : Bool) : FlagsAre p (putFlag f b p) [(f.bit, b)] :=
    (FlagsAre.refl p).after_putFlag f b
  exact ⟨hwrite .n true, hwrite .n false, hwrite .v true, hwrite .v false, hwrite .b5 true,
    hwrite .b5 false, hwrite .b4 true, hwrite .b4 false, hwrite .d true, hwrite .d false, hwrite .i true,
    hwrite .i false, hwrite .z true, hwrite .z false, hwrite .c true, hwrite .c false⟩

/-- Settles O23: doubling and halving the byte as a number; the bit shifted out goes into C before Z and N. -/
theorem shiftPrimitives : Obligations.ShiftPrimitives := fun v p =>
  ⟨shiftLeft_fst_toNat v p, shiftLeft_flagsAre v p, shiftRight_fst_toNat v p, shiftRight_flagsAre v p⟩

/-- Settles O25: Z and N are those of the byte written last. -/
theorem incrementDecrementPrimitives : Obligations.IncrementDecrementPrimitives := by
  intro v p
  have hback : v + 1 - 1 = v := BitVec.add_sub_cancel v 1
  have hdec : (v - 1).toNat = (v.toNat + 255) % 256 := by
    rw [BitVec.toNat_sub, Nat.add_comm]
    rfl
  refine ⟨BitVec.toNat_add v 1, setNZ_flagsAre _ p, hdec, setNZ_flagsAre _ p, hback, ?_⟩
  rw [decrement, increment, hback]
  exact (setNZ_flagsAre (v + 1) p).after_setNZ_again v

/-- Settles O26, by the read after a push. -/
theorem pushAndPop : Obligations.PushAndPop := by
  intro c b
  have hsp : (push b c).sp + 1 = c.sp := BitVec.sub_add_cancel c.sp 1
  refine ⟨stackAddr_toNat c.sp, push_storesOnly b c, rfl, rfl, rfl, ?_, hsp⟩
  rw [pop_value, hsp]
  exact (push_storesOnly b c).1

/-- Settles O27: SP is two lower after a word is pushed, and two higher after one is popped. -/
theorem pushWordAndPopWord : Obligations.PushWordAndPopWord := by
  intro c w
  have hdown : c.sp - 1 - 1 = c.sp - 2 := by bv_omega
  have hup : c.sp + 1 + 1 = c.sp + 2 := BitVec.add_assoc c.sp 1 1
  refine ⟨pushWord_pushesWord w c, ?_, ?_, ?_, popWord_pushWord w c⟩
  · rw [← hdown]
    rfl
  · rw [popWord_value, word_toNat, hup]
  · rw [popWord_state, hup]

end Sys2Proof
end

section
/-! PROOFS. The loads, stores and transfers of 42_load_store_transfer.md: Z and N of the byte moved into a
register (R90), no flag of a byte stored, and the one register or cell that receives it. -/

namespace Sys2Proof
namespace Machine
open Claims

/-- A write through memory stores its byte and no other (R36). -/
theorem storesOnly_of_mem_eq_write {s t : State} {a : Addr} {r : Byte} (h : t.mem = s.mem.write a r) :
    StoresOnly s t a r := by
  have hread (b : Addr) : t.read b = if b = a then r else s.read b := by
    rw [State.read, h, Memory.read_write, State.read]
  exact ⟨(hread a).trans (if_pos rfl), fun b hb => (hread b).trans (if_neg hb)⟩

/-- An instruction that goes on after writing one cell, P and PC. -/
theorem setsCell_of_exec_eq {i : Instr} {m : MemMode} {s : State} {p r : Byte}
    {changed : List (Nat × Bool)}
    (hexec : exec i s = .next { s with
      p := p
      pc := nextPc i s
      mem := s.mem.write (effectiveAddress s m) r })
    (hcont : continueOf i = true) (hflags : FlagsAre s.p p changed) : SetsCell i m s r changed :=
  ⟨_, hexec, hcont, hflags, storesOnly_of_mem_eq_write rfl, rfl⟩

end Machine

open Machine Claims

/-- Settles O31: a load writes Z and N of the operand byte, whichever the form of its operand. -/
theorem loadsSetTheirRegister : Obligations.LoadsSetTheirRegister := by
  intro o s
  have hflags : FlagsAre s.p (setNZ (operandByte s o) s.p) (nz (operandByte s o)) := setNZ_flagsAre _ s.p
  cases o <;>
    exact ⟨⟨_, hflags, exec_lda _ s, rfl⟩, ⟨_, hflags, exec_ldx _ s, rfl⟩, ⟨_, hflags, exec_ldy _ s, rfl⟩⟩

/-- Settles O32: a store writes its register to one cell and leaves P. -/
theorem storesWriteOneByte : Obligations.StoresWriteOneByte := fun m s =>
  ⟨setsCell_of_exec_eq (exec_sta m s) rfl (.refl s.p), setsCell_of_exec_eq (exec_stx m s) rfl (.refl s.p),
    setsCell_of_exec_eq (exec_sty m s) rfl (.refl s.p)⟩

/-- Settles O33: every transfer but TXS writes Z and N of the byte copied (R92). -/
theorem transfersCopyARegister : Obligations.TransfersCopyARegister := by
  intro s
  have hflags (v : Byte) : FlagsAre s.p (setNZ v s.p) (nz v) := setNZ_flagsAre v s.p
  exact ⟨⟨_, hflags s.a, exec_tax s, rfl⟩, ⟨_, hflags s.x, exec_txa s, rfl⟩,
    ⟨_, hflags s.a, exec_tay s, rfl⟩, ⟨_, hflags s.y, exec_tya s, rfl⟩,
    ⟨_, hflags s.sp, exec_tsx s, rfl⟩, exec_txs s, rfl⟩

end Sys2Proof
end

section
/-! PROOFS. INC, DEC, INX, INY, DEX and DEY of 43_incdec_compare.md: Inc and Dec (R101, R102) of one cell or
one register, with Z and N of the byte written back (R90, R107). -/

namespace Sys2Proof
open Machine Claims

/-- Settles O34: the cell receives the byte of which Inc and Dec write Z and N. -/
theorem incDecChangeOneByte : Obligations.IncDecChangeOneByte := fun m s =>
  ⟨setsCell_of_exec_eq (exec_inc m s) rfl (setNZ_flagsAre _ s.p),
    setsCell_of_exec_eq (exec_dec m s) rfl (setNZ_flagsAre _ s.p)⟩

/-- Settles O35: the register receives the byte of which Inc and Dec write Z and N. -/
theorem incDecChangeOneRegister : Obligations.IncDecChangeOneRegister := fun s =>
  ⟨⟨_, setNZ_flagsAre _ s.p, exec_inx s, rfl⟩, ⟨_, setNZ_flagsAre _ s.p, exec_iny s, rfl⟩,
    ⟨_, setNZ_flagsAre _ s.p, exec_dex s, rfl⟩, ⟨_, setNZ_flagsAre _ s.p, exec_dey s, rfl⟩⟩

end Sys2Proof
end

section
/-! PROOFS. The logic, shifts, rotates and arithmetic of 44_logic_shift_arith.md: the results of the shifts
and rotates as numbers (R97 to R100), and the flags of a sum and a difference (R95, R96), which C and V share. -/

namespace Sys2Proof
namespace Machine
open Claims

/-! ### Shifted and rotated bytes as numbers -/

theorem shiftLeft_fst_eq (v p : Byte) : (shiftLeft v p).1 = BitVec.ofNat 8 (v.toNat * 2) :=
  BitVec.eq_of_toNat_eq (shiftLeft_fst_toNat v p)

theorem shiftRight_fst_eq (v p : Byte) : (shiftRight v p).1 = BitVec.ofNat 8 (v.toNat / 2) := by
  rw [← shiftRight_fst_toNat v p, BitVec.ofNat_toNat, BitVec.setWidth_eq]

theorem carryIn_eq_carryOf (p : Byte) : carryIn p = carryOf p := carryIn_eq p

/-- The shift leaves bit 0 clear for the Carry (R99). -/
theorem rotateLeft_fst_eq (v p : Byte) :
    (rotateLeft v p).1 = BitVec.ofNat 8 (v.toNat * 2 + carryOf p) := by
  have hlow : carryOf p < 2 ^ 1 := Bool.toNat_lt _
  have hsum : v.toNat * 2 + carryOf p = v.toNat * 2 ||| carryOf p := by
    rw [← Nat.pow_one 2, ← Nat.shiftLeft_eq, Nat.shiftLeft_add_eq_or_of_lt hlow]
  rw [rotateLeft, shiftLeft_fst_eq, carryIn_eq_carryOf, ← BitVec.ofNat_or, ← hsum]

/-- The shift leaves bit 7 clear for the Carry (R100). -/
theorem rotateRight_fst_eq (v p : Byte) :
    (rotateRight v p).1 = BitVec.ofNat 8 (v.toNat / 2 + 128 * carryOf p) := by
  have hlow : v.toNat / 2 < 2 ^ 7 := by omega
  have hsum : v.toNat / 2 + 128 * carryOf p = v.toNat / 2 ||| carryOf p <<< 7 := by
    rw [Nat.lor_comm, ← Nat.shiftLeft_add_eq_or_of_lt hlow, Nat.shiftLeft_eq]
    omega
  have hcarry : BitVec.ofNat 8 (carryOf p) <<< 7 = BitVec.ofNat 8 (carryOf p <<< 7) := by
    rw [carryOf]
    cases p.getLsbD 0 <;> rfl
  rw [rotateRight, shiftRight_fst_eq, carryIn_eq_carryOf, hcarry, ← BitVec.ofNat_or, ← hsum]

/-- A rotate's flags are the shift's: the old Carry goes in after they are written (the spec's decision
D21). -/
theorem rotateLeft_flagsAre (v p : Byte) : FlagsAre p (rotateLeft v p).2 (leftFlags v) :=
  shiftLeft_flagsAre v p

theorem rotateRight_flagsAre (v p : Byte) : FlagsAre p (rotateRight v p).2 (rightFlags v) :=
  shiftRight_flagsAre v p

/-! ### The flags of a sum or a difference -/

/-- Four writes to four flags: the list of them may be read in any order. -/
theorem setNZ_carry_overflow_flagsAre (r p : Byte) (wrapped : Bool) :
    FlagsAre p (setNZ r (putFlag .c wrapped (putFlag .v wrapped p)))
      ((6, wrapped) :: (0, wrapped) :: nz r) := fun k hk => by
  have hflags := (((FlagsAre.refl p).after_putFlag .v wrapped).after_putFlag .c wrapped).after_setNZ r
  rw [hflags k hk]
  simp only [nz, List.cons_append, List.nil_append, lookup_cons_getD, Flag.bit]
  grind

end Machine

open Machine Claims

/-- Settles O37: AND leaves P as it is; ORA and EOR write Z and N of the new A. -/
theorem logicCombinesWithA : Obligations.LogicCombinesWithA := by
  intro o s
  have hflags (v : Byte) : FlagsAre s.p (setNZ v s.p) (nz v) := setNZ_flagsAre v s.p
  cases o <;>
    exact ⟨⟨_, .refl s.p, exec_and _ s, rfl⟩, ⟨_, hflags _, exec_ora _ s, rfl⟩,
      ⟨_, hflags _, exec_eor _ s, rfl⟩⟩

/-- Settles O38: A receives the primitive's byte, which is the number claimed. -/
theorem shiftsAndRotatesOfA : Obligations.ShiftsAndRotatesOfA := by
  intro s
  rw [← shiftLeft_fst_eq s.a s.p, ← shiftRight_fst_eq s.a s.p, ← rotateLeft_fst_eq, ← rotateRight_fst_eq]
  exact ⟨⟨_, shiftLeft_flagsAre s.a s.p, exec_asl_acc s, rfl⟩,
    ⟨_, shiftRight_flagsAre s.a s.p, exec_lsr_acc s, rfl⟩,
    ⟨_, rotateLeft_flagsAre s.a s.p, exec_rol_acc s, rfl⟩,
    ⟨_, rotateRight_flagsAre s.a s.p, exec_ror_acc s, rfl⟩⟩

/-- Settles O39: the cell receives the byte that A receives in the accumulator form, with the same flags. -/
theorem shiftsAndRotatesOfMemory : Obligations.ShiftsAndRotatesOfMemory := by
  intro m s v
  rw [← shiftLeft_fst_eq v s.p, ← shiftRight_fst_eq v s.p, ← rotateLeft_fst_eq, ← rotateRight_fst_eq]
  exact ⟨setsCell_of_exec_eq (exec_asl_mem m s) rfl (shiftLeft_flagsAre v s.p),
    setsCell_of_exec_eq (exec_lsr_mem m s) rfl (shiftRight_flagsAre v s.p),
    setsCell_of_exec_eq (exec_rol_mem m s) rfl (rotateLeft_flagsAre v s.p),
    setsCell_of_exec_eq (exec_ror_mem m s) rfl (rotateRight_flagsAre v s.p)⟩

/-- Settles O40: C and V are both written with whether the sum passes 255, and D is not read. -/
theorem adcAddsWithCarry : Obligations.AdcAddsWithCarry := by
  intro o s
  rw [← carryIn_eq_carryOf]
  cases o <;> exact ⟨_, setNZ_carry_overflow_flagsAre _ s.p _, exec_adc _ s, rfl⟩

/-- Settles O41: C and V are both written with whether the difference is below zero. -/
theorem sbcSubtractsWithBorrow : Obligations.SbcSubtractsWithBorrow := by
  intro o s
  rw [← carryIn_eq_carryOf]
  cases o <;> exact ⟨_, setNZ_carry_overflow_flagsAre _ s.p _, exec_sbc _ s, rfl⟩

end Sys2Proof
end

section
/-! PROOFS. The jumps, calls, returns and branches of 45_control_flow.md: what a call leaves on the stack and
a return takes from it (R155 to R159), and the signed displacement of a taken branch (R82, R160). -/

namespace Sys2Proof
namespace Machine
open Claims

/-! ### SP after pushes and pops -/

theorem sp_sub_one_sub_one (sp : Byte) : sp - 1 - 1 = sp - 2 := by bv_omega

theorem sp_add_one_add_one (sp : Byte) : sp + 1 + 1 = sp + 2 := BitVec.add_assoc sp 1 1

theorem sp_add_one_add_one_add_one (sp : Byte) : sp + 1 + 1 + 1 = sp + 3 := by
  rw [sp_add_one_add_one]
  exact BitVec.add_assoc sp 1 2

/-! ### Words from memory as numbers -/

/-- The high byte lies at the next address modulo 65536 (R34). -/
theorem readWord_toNat (c : State) (a : Addr) :
    (c.mem.readWord a).toNat =
      (c.read (BitVec.ofNat 16 (a.toNat + 1))).toNat * 256 + (c.read a).toNat := by
  have hnext : a + 1 = BitVec.ofNat 16 (a.toNat + 1) := by
    rw [BitVec.ofNat_add, BitVec.ofNat_toNat, BitVec.setWidth_eq, BitVec.ofNat_eq_ofNat]
  rw [Memory.readWord, word_toNat, hnext]
  rfl

/-- The address one past a popped word, to which a return goes (R158, R159). -/
theorem word_add_one_toNat (h l : Byte) :
    (word h l + 1).toNat = (h.toNat * 256 + l.toNat + 1) % 65536 := by
  rw [BitVec.toNat_add, word_toNat]
  rfl

/-! ### Calls (R155 to R157, conflict C2) -/

theorem call_pushesWord (target : Addr) (c : State) :
    PushesWord c (call target c) ((c.pc.toNat + 2) % 65536) :=
  pushWord_pushesWord (c.pc + 2) c

theorem call_frame (target : Addr) (c : State) :
    call target c = { c with pc := target, sp := c.sp - 2, mem := (call target c).mem } := by
  rw [call_eq, sp_sub_one_sub_one]

/-- Where SP and the two stack bytes are as the call left them, a return finds the pushed PC0 + 2. -/
theorem returnFromCall_of_call {target : Addr} {c v : State} (hsp : v.sp = (call target c).sp)
    (hhigh : v.read (stackAddr c.sp) = (call target c).read (stackAddr c.sp))
    (hlow : v.read (stackAddr (c.sp - 1)) = (call target c).read (stackAddr (c.sp - 1))) :
    returnFromCall v = { v with pc := c.pc + 3, sp := c.sp } := by
  have hspLow : v.sp + 1 = c.sp - 1 := by
    rw [hsp]
    exact BitVec.sub_add_cancel (c.sp - 1) 1
  have hspHigh : v.sp + 1 + 1 = c.sp := by
    rw [hspLow]
    exact BitVec.sub_add_cancel c.sp 1
  have hhigh' : v.read (stackAddr c.sp) = hiByte (c.pc + 2) := hhigh.trans (pushWord_read_high _ c)
  have hlow' : v.read (stackAddr (c.sp - 1)) = loByte (c.pc + 2) := hlow.trans (pushWord_read_low _ c)
  have hnext : c.pc + 2 + 1 = c.pc + 3 := BitVec.add_assoc c.pc 2 1
  rw [returnFromCall_eq, hspHigh, hspLow, hhigh', hlow', word_hiByte_loByte, hnext]

/-! ### Branches (R82, R160) -/

theorem sext16_eq_ofInt (d : Byte) : sext16 d = BitVec.ofInt 16 d.toInt := rfl

/-- The sum of words is the sum of integers modulo 65536. -/
theorem branchTarget_eq_ofInt (pc : Addr) (d : Byte) (taken : Bool) :
    (pc + 2 + if taken then sext16 d else 0) =
      BitVec.ofInt 16 (pc.toNat + 2 + if taken then d.toInt else 0) := by
  have hdisp : (if taken then sext16 d else 0) = BitVec.ofInt 16 (if taken then d.toInt else 0) := by
    cases taken
    · rfl
    · exact sext16_eq_ofInt d
  have hpc : BitVec.ofInt 16 pc.toNat = pc := by
    rw [BitVec.ofInt_natCast, BitVec.ofNat_toNat, BitVec.setWidth_eq]
  rw [hdisp, BitVec.ofInt_add, BitVec.ofInt_add, hpc]
  rfl

/-- A branch on a condition, with the bit of P that the condition reads. -/
theorem branches_of_exec_eq {i : Instr} {d : Byte} {s : State} {cond taken : Bool}
    (hexec : exec i s = .next { s with pc := s.pc + 2 + if cond then sext16 d else 0 })
    (hcont : continueOf i = true) (hcond : cond = taken) : Branches i d s taken := by
  rw [hcond, branchTarget_eq_ofInt] at hexec
  exact ⟨hexec, hcont⟩

end Machine

open Machine Claims

/-- Settles O42: all three are one call, of a target computed before the pushes. -/
theorem jumpsPushAndGo : Obligations.JumpsPushAndGo :=
  ⟨fun target s => ⟨call target s, exec_jsr target s, exec_jmpAbs target s, rfl, rfl,
      call_pushesWord target s, call_frame target s⟩,
    fun pointer s => ⟨call (indirectTarget pointer s) s, exec_jmpInd pointer s, rfl,
      call_pushesWord _ s, readWord_toNat s pointer, call_frame _ s⟩⟩

/-- Settles O52: the two bytes that RTS pops are those of PC0 + 2. -/
theorem callThenReturnComesBack : Obligations.CallThenReturnComesBack := by
  intro target s t v hjsr hsp hhigh hlow
  cases hjsr
  exact congrArg Host.Outcome.next (returnFromCall_of_call hsp hhigh hlow)

/-- Settles O43: RTI pops P first, and so finds its word one cell further on than RTS. -/
theorem returnsPopAndAddOne : Obligations.ReturnsPopAndAddOne := by
  refine fun s => ⟨⟨_, word_add_one_toNat _ _, ?_, rfl⟩, ⟨_, word_add_one_toNat _ _, ?_, rfl⟩⟩
  · rw [exec_rts, sp_add_one_add_one]
  · rw [exec_rti, sp_add_one_add_one_add_one, sp_add_one_add_one]

/-- Settles O44: each condition reads one bit of P, as it stands or inverted. -/
theorem branchesTestOneFlag : Obligations.BranchesTestOneFlag := fun d s =>
  ⟨branches_of_exec_eq (exec_bcc d s) rfl (congrArg not (getFlag_eq .c s.p)),
    branches_of_exec_eq (exec_bcs d s) rfl (getFlag_eq .c s.p),
    branches_of_exec_eq (exec_beq d s) rfl (getFlag_eq .z s.p),
    branches_of_exec_eq (exec_bne d s) rfl (congrArg not (getFlag_eq .z s.p)),
    branches_of_exec_eq (exec_bmi d s) rfl (getFlag_eq .n s.p),
    branches_of_exec_eq (exec_bpl d s) rfl (congrArg not (getFlag_eq .n s.p)),
    branches_of_exec_eq (exec_bvc d s) rfl (congrArg not (getFlag_eq .v s.p)),
    branches_of_exec_eq (exec_bvs d s) rfl (getFlag_eq .v s.p)⟩

end Sys2Proof
end

section
/-! PROOFS. The flag instructions, BRK and the unrecognized opcodes of 46_flags_nop_brk.md: the one bit of P
that each writes (R175 to R181, R183), what the halt path leaves on the stack (R183, R184), and the opcode
bytes that take it (R185). -/

namespace Sys2Proof
namespace Machine
open Claims

/-! ### The opcode bytes that halt (R185) -/

/-- The fetched instruction is spelled with the opcode byte at PC. -/
theorem exists_spells_fetch (s : State) :
    ∃ operands, Spells (s.read s.pc :: operands) (fetch s) := by
  cases hop : opcodeEntry (s.read s.pc) with
  | one i =>
    rw [fetch_one hop]
    exact ⟨_, .one hop⟩
  | byte make =>
    rw [fetch_byte hop]
    exact ⟨_, .byte hop _⟩
  | word make =>
    rw [fetch_word hop]
    exact ⟨_, .word hop _⟩

/-- What halts is BRK, which is encoded as 0x00, or an unrecognized byte, which is its own encoding. -/
theorem haltingByte_of_encode {i : Instr} {op : Byte} {operands : List Byte}
    (henc : encode i = some (op :: operands)) (hc : continueOf i = false) : haltingByte op = true := by
  cases i with
  | brk =>
    cases henc
    rfl
  | unrecognized op' =>
    obtain ⟨hlisted, hbs⟩ := Option.ite_none_right_eq_some.1 henc
    cases hbs
    exact Bool.or_eq_true_iff.2 (.inr hlisted)
  | _ => cases hc

theorem opcodeEntry_of_haltingByte {op : Byte} (h : haltingByte op = true) :
    ∃ i, opcodeEntry op = .one i ∧ continueOf i = false := by
  obtain hbrk | hlisted := Bool.or_eq_true_iff.1 h
  · obtain rfl := eq_of_beq hbrk
    exact ⟨.brk, rfl, rfl⟩
  · exact ⟨_, opcodeEntry_of_mem_unrecognizedOpcodes (List.contains_iff_mem.1 hlisted), rfl⟩

theorem stepContinue_eq_false_iff (s : State) :
    stepContinue s = false ↔ haltingByte (s.read s.pc) = true := by
  rw [stepContinue_eq]
  constructor
  · intro hc
    obtain ⟨operands, hspells⟩ := exists_spells_fetch s
    exact haltingByte_of_encode (encode_of_spells hspells) hc
  · intro hbyte
    obtain ⟨i, hop, hc⟩ := opcodeEntry_of_haltingByte hbyte
    rw [fetch_one hop, hc]

/-! ### One flag written (R91) -/

theorem putFlag_flagsAre (f : Flag) (b : Bool) (p : Byte) : FlagsAre p (putFlag f b p) [(f.bit, b)] :=
  (FlagsAre.refl p).after_putFlag f b

/-! ### What the halt path leaves (R183, R184) -/

/-- The word PC0 + 2 is pushed first, and P below it. -/
theorem haltPath_read (c : State) (a : Addr) :
    (haltPath c).read a =
      if a = stackAddr (c.sp - 1 - 1) then c.p else (pushWord (c.pc + 2) c).read a := by
  rw [haltPath_eq]
  exact Memory.read_write _ _ a c.p

/-- The three cells are distinct, even where SP wraps, so each byte pushed stays. -/
theorem haltPath_read_high (c : State) :
    (haltPath c).read (stackAddr c.sp) = hiByte (c.pc + 2) := by
  have hother : stackAddr c.sp ≠ stackAddr (c.sp - 1 - 1) := fun h =>
    sub_two_ne c.sp (stackAddr_inj.1 h).symm
  rw [haltPath_read, if_neg hother, pushWord_read_high]

theorem haltPath_read_low (c : State) :
    (haltPath c).read (stackAddr (c.sp - 1)) = loByte (c.pc + 2) := by
  have hother : stackAddr (c.sp - 1) ≠ stackAddr (c.sp - 1 - 1) := fun h =>
    sub_one_ne (c.sp - 1) (stackAddr_inj.1 h).symm
  rw [haltPath_read, if_neg hother, pushWord_read_low]

/-- P is on the stack as it stood, before I is set. -/
theorem haltPath_read_flags (c : State) : (haltPath c).read (stackAddr (c.sp - 2)) = c.p := by
  rw [haltPath_read, sp_sub_one_sub_one, if_pos rfl]

theorem haltPath_flagsAre (c : State) : FlagsAre c.p (haltPath c).p [(2, true)] := by
  rw [haltPath_p]
  exact putFlag_flagsAre .i true c.p

theorem haltPath_frame (c : State) :
    haltPath c = { c with sp := c.sp - 3, p := (haltPath c).p, mem := (haltPath c).mem } := by
  have hsp : c.sp - 1 - 1 - 1 = c.sp - 3 := by bv_omega
  rw [haltPath_eq, hsp]

end Machine

open Machine Claims

/-- Settles O10: the opcode byte at PC decides whether the fetched instruction halts. -/
theorem haltsExactlyOnHaltingBytes : Obligations.HaltsExactlyOnHaltingBytes := fun s =>
  let ⟨_, ht⟩ := step_total s
  ⟨_, stepResult_of_step ht, stepContinue_eq_false_iff s⟩

/-- Settles O46: both take the one halt path, from which each clause is read off. -/
theorem haltPathPushesAndStays : Obligations.HaltPathPushesAndStays := by
  intro op s
  have hword : (s.pc + 2).toNat = (s.pc.toNat + 2) % 65536 := BitVec.toNat_add s.pc 2
  refine ⟨haltPath s, exec_brk s, exec_unrecognized op s, rfl, rfl, haltPath_flagsAre s, ?_, ?_,
    haltPath_read_flags s, haltPath_eqOff s, haltPath_frame s⟩
  · rw [haltPath_read_high, hiByte_toNat, hword]
  · rw [haltPath_read_low, loByte_toNat, hword]
    exact Nat.mod_mod_of_dvd _ (by decide)

/-- Settles O45: each writes the flag it names, by its number in P (R15); NOP is its own equation. -/
theorem flagInstructionsWriteOneBit : Obligations.FlagInstructionsWriteOneBit := fun s =>
  ⟨⟨_, putFlag_flagsAre .c true s.p, exec_sec s, rfl⟩,
    ⟨_, putFlag_flagsAre .c false s.p, exec_clc s, rfl⟩,
    ⟨_, putFlag_flagsAre .d true s.p, exec_sed s, rfl⟩,
    ⟨_, putFlag_flagsAre .d false s.p, exec_cld s, rfl⟩,
    ⟨_, putFlag_flagsAre .i true s.p, exec_sei s, rfl⟩,
    ⟨_, putFlag_flagsAre .i false s.p, exec_cli s, rfl⟩,
    ⟨_, putFlag_flagsAre .v false s.p, exec_clv s, rfl⟩, exec_nop s, rfl⟩

end Sys2Proof
end

section
/-! PROOFS. The return from the halt path (60_exceptions.md R206), and the core among its surroundings as
70_reset_and_hazards.md gives them: the fresh core (R221), the loader (R223, R224), the run (R227) and the
core after a halt (R228). -/

namespace Sys2Proof
namespace Machine

/-! ### A step that halts (R183, R185) -/

theorem step_eq_haltPath {s : State} (h : stepContinue s = false) : step s = .next (haltPath s) :=
  exec_eq_haltPath h s

/-- Where the opcode byte and PC are those of a halting step, the step halts too (R228). -/
theorem stepContinue_eq_false_of_same_byte {s t : State} (h : stepContinue s = false)
    (hpc : t.pc = s.pc) (hbyte : t.read s.pc = s.read s.pc) : stepContinue t = false := by
  rw [stepContinue_eq_false_iff] at h ⊢
  rwa [hpc, hbyte]

theorem haltPath_sp (c : State) : (haltPath c).sp = c.sp - 3 := by rw [haltPath_frame]

/-! ### The return from the halt path (R159, R206) -/

/-- Where SP and the three stack bytes are as the halt path left them, the return finds P and PC0 + 2. -/
theorem returnFromHalt_of_haltPath {c v : State} (hsp : v.sp = (haltPath c).sp)
    (hhigh : v.read (stackAddr c.sp) = (haltPath c).read (stackAddr c.sp))
    (hlow : v.read (stackAddr (c.sp - 1)) = (haltPath c).read (stackAddr (c.sp - 1)))
    (hflags : v.read (stackAddr (c.sp - 2)) = (haltPath c).read (stackAddr (c.sp - 2))) :
    returnFromHalt v = { v with pc := c.pc + 3, sp := c.sp, p := c.p } := by
  have hspFlags : v.sp + 1 = c.sp - 2 := by rw [hsp, haltPath_sp]; bv_omega
  have hspLow : v.sp + 1 + 1 = c.sp - 1 := by rw [hspFlags]; bv_omega
  have hspHigh : v.sp + 1 + 1 + 1 = c.sp := by
    rw [hspLow]
    exact BitVec.sub_add_cancel c.sp 1
  have hnext : c.pc + 2 + 1 = c.pc + 3 := BitVec.add_assoc c.pc 2 1
  rw [returnFromHalt_eq, hspHigh, hspLow, hspFlags, hhigh, hlow, hflags, haltPath_read_high,
    haltPath_read_low, haltPath_read_flags, word_hiByte_loByte, hnext]

/-! ### The fresh core (R221) -/

theorem State.read_reset (a : Addr) : State.reset.read a = 0x00 := Memory.read_nil a

/-- Of the three bytes that the halt path pushes from reset, only the low byte of PC0 + 2 is not 0. -/
theorem haltPath_reset_read (a : Addr) :
    (haltPath State.reset).read a = if a = 0x01FE then 0x02 else 0x00 := by
  have hcells : stackAddr (State.reset.sp - 1) = 0x01FE ∧
      stackAddr (State.reset.sp - 1 - 1) ≠ 0x01FE := by decide
  have hbytes : hiByte (State.reset.pc + 2) = 0x00 ∧ loByte (State.reset.pc + 2) = 0x02 ∧
      State.reset.p = 0x00 := by decide
  obtain ⟨hlow, hflags⟩ := hcells
  obtain ⟨hhi, hlo, hp⟩ := hbytes
  rw [haltPath_read, pushWord_read, hlow, hhi, hlo, hp, State.read_reset, ite_self]
  split
  · next ha => rw [if_neg (ha ▸ hflags)]
  · rfl

/-! ### The loader (R223) -/

/-- The load address, low byte first, as a number. -/
theorem word_eq_ofNat (h l : Byte) : word h l = BitVec.ofNat 16 (h.toNat * 256 + l.toNat) := by
  rw [← word_toNat, BitVec.ofNat_toNat, BitVec.setWidth_eq]

theorem loadImage_read (image : Image) (c : State) (a : Addr) :
    (loadImage image c).read a = (c.writeBytes image.base image.bytes).read a := rfl

theorem loadImage_frame (image : Image) (c : State) :
    loadImage image c = { c with pc := image.base, mem := (loadImage image c).mem } := by
  rw [loadImage, State.writeBytes_eq]

/-! ### The run (R227) -/

theorem run_of_halting_step {ws : List (List (Addr × Byte))} {s t : State}
    (h : step (hostWrites (ws.headD []) s) = .next t)
    (hc : stepContinue (hostWrites (ws.headD []) s) = false) (k : Nat) :
    run (k + 1) ws s = .final t := by
  rw [run_succ h, hc, if_neg Bool.false_ne_true]

theorem run_of_continuing_step {ws : List (List (Addr × Byte))} {s t : State}
    (h : step (hostWrites (ws.headD []) s) = .next t)
    (hc : stepContinue (hostWrites (ws.headD []) s) = true) (k : Nat) :
    run (k + 1) ws s = run k ws.tail t := by
  rw [run_succ h, if_pos hc]

/-- What the first step can do: it ends every run that makes it, or every such run goes on from the state
it left. -/
theorem run_succ_cases (ws : List (List (Addr × Byte))) (s : State) :
    ∃ u t, step u = .next t ∧
      (stepContinue u = false ∧ (∀ k, run (k + 1) ws s = .final t) ∨
        stepContinue u = true ∧ ∀ k, run (k + 1) ws s = run k ws.tail t) := by
  obtain ⟨t, ht⟩ := step_total (hostWrites (ws.headD []) s)
  refine ⟨_, t, ht, ?_⟩
  cases hc : stepContinue (hostWrites (ws.headD []) s) with
  | false => exact .inl ⟨rfl, run_of_halting_step ht hc⟩
  | true => exact .inr ⟨rfl, run_of_continuing_step ht hc⟩

/-- A final state was left by a step that returned false, and further steps of the host do not change it. -/
theorem run_final {k : Nat} {ws : List (List (Addr × Byte))} {s t : State}
    (h : run k ws s = .final t) :
    (∃ u, step u = .next t ∧ stepContinue u = false) ∧ ∀ m, run (k + m) ws s = .final t := by
  induction k generalizing ws s with
  | zero => cases h
  | succ k ih =>
    obtain ⟨u, t', ht', ⟨hc, hrun⟩ | ⟨hc, hrun⟩⟩ := run_succ_cases ws s
    · rw [hrun] at h
      cases h
      exact ⟨⟨u, ht', hc⟩, fun m => by rw [Nat.add_right_comm, hrun]⟩
    · rw [hrun] at h
      obtain ⟨hlast, hstays⟩ := ih h
      exact ⟨hlast, fun m => by rw [Nat.add_right_comm, hrun, hstays]⟩

/-- Where a run that made a step is still running, its last step returned true. -/
theorem run_running {k : Nat} {ws : List (List (Addr × Byte))} {s t : State}
    (h : run (k + 1) ws s = .running t) : ∃ u, step u = .next t ∧ stepContinue u = true := by
  induction k generalizing ws s with
  | zero =>
    obtain ⟨u, t', ht', ⟨-, hrun⟩ | ⟨hc, hrun⟩⟩ := run_succ_cases ws s
    · rw [hrun] at h
      cases h
    · rw [hrun] at h
      cases h
      exact ⟨u, ht', hc⟩
  | succ k ih =>
    obtain ⟨u, t', -, ⟨-, hrun⟩ | ⟨-, hrun⟩⟩ := run_succ_cases ws s
    · rw [hrun] at h
      cases h
    · exact ih ((hrun (k + 1)).symm.trans h)

theorem run_ne_refused (k : Nat) (ws : List (List (Addr × Byte))) (s : State) (r : Refusal) :
    run k ws s ≠ .refused r := by
  induction k generalizing ws s with
  | zero => exact RunEnd.noConfusion
  | succ k ih =>
    obtain ⟨u, t, -, ⟨-, hrun⟩ | ⟨-, hrun⟩⟩ := run_succ_cases ws s
    · rw [hrun]
      exact RunEnd.noConfusion
    · rw [hrun]
      exact ih ws.tail t

end Machine

open Machine Claims

/-- Settles O53: an instruction that does not continue took the halt path, and RTI pops what that pushed. -/
theorem returnAfterHaltRestoresFlags : Obligations.ReturnAfterHaltRestoresFlags := by
  intro i s t v hcont hexec hsp hhigh hlow hflags
  rw [exec_eq_haltPath hcont] at hexec
  cases hexec
  exact congrArg Host.Outcome.next (returnFromHalt_of_haltPath hsp hhigh hlow hflags)

/-- Settles O11: the halt path leaves PC, so the byte that halted the first step decides the second. -/
theorem haltRepeatsOnceWhereTheByteStands : Obligations.HaltRepeatsOnceWhereTheByteStands := by
  intro s t hst hcont hbyte
  rw [step_eq_haltPath hcont] at hst
  cases hst
  have hpc : (haltPath s).pc = s.pc := haltPath_pc s
  have hagain : stepContinue (haltPath s) = false :=
    stepContinue_eq_false_of_same_byte hcont hpc hbyte
  exact ⟨hpc, hagain, _, step_eq_haltPath hagain, (haltPath_pc _).trans hpc, haltPath_sp _⟩

/-- Settles O55: the loader stores the bytes as any consecutive store does, and sets PC. -/
theorem loaderCopiesTheImage : Obligations.LoaderCopiesTheImage := by
  refine ⟨fun image c => ⟨fun k b hb hlast => ?_, fun a ha => ?_, loadImage_frame image c⟩,
    fun lo hi bytes c => ?_⟩
  · rw [loadImage_read]
    exact State.read_writeBytes_at image.bytes image.base c k b hb hlast
  · rw [loadImage_read]
    exact State.read_writeBytes_other image.bytes image.base c a ha
  · rw [← word_eq_ofNat]
    rfl

/-- Settles O58: the first step decides between ending and going on; the rest is by induction on the number
of steps. -/
theorem runEndsAtTheFirstFalse : Obligations.RunEndsAtTheFirstFalse :=
  ⟨fun _ _ => rfl, fun k _ _ _ h hc => run_of_halting_step h hc k,
    fun k _ _ _ h hc => run_of_continuing_step h hc k, fun _ _ _ _ h => run_final h,
    fun _ _ _ _ h => run_running h, run_ne_refused⟩

/-- Settles O16: after reset the byte at PC is that of BRK. -/
theorem freshCoreHaltsAtOnce : Obligations.FreshCoreHaltsAtOnce := by
  have hcont : stepContinue State.reset = false := (stepContinue_eq_false_iff _).2 rfl
  have hresult : stepResult State.reset = .next { state := haltPath State.reset, cont := false } := by
    rw [stepResult_of_step (step_eq_haltPath hcont), hcont]
  refine ⟨haltPath State.reset, hresult, haltPath_pc _, haltPath_sp _, haltPath_p _, ?_,
    fun a ha => ?_⟩
  · rw [haltPath_reset_read, if_pos rfl]
  · rw [haltPath_reset_read, if_neg ha]

/-- Settles O56: a file that cannot be read yields no image, and every state has a next one. -/
theorem failedLoadChangesNothing : Obligations.FailedLoadChangesNothing :=
  fun c => ⟨rfl, rfl, step_total c⟩

end Sys2Proof
end
